-- ==== Sys2Proof/Word.lean ====
section
/-! DEFINITION. The two fixed-width values of the spec (00_scope.md R10). -/

namespace Sys2Proof

/-- "`Word` is an unsigned 32-bit value" (00_scope.md R10). -/
abbrev Word := BitVec 32

/-- "`Byte` an unsigned 8-bit value" (00_scope.md R10). -/
abbrev Byte := BitVec 8

end Sys2Proof
end

