-- ==== Sys2Proof/Machine/Operands.lean ====
section
/-! DEFINITION. Operand forms: rotations, byte order, byte windows, wide windows, and the pending buffer as an array of
bytes. Byte order is decided here and nowhere else. -/

namespace Sys2Proof.Machine

/-! ## Words and bytes -/

/-- `rotl(x, n) = ((x << n) OR (x >> (32 - n)))[31:0]` for `0 < n < 32`, and `rotl(x, 0) = x` (00_scope.md R11). -/
def rotl (x : Word) (n : Nat) : Word := (x <<< n) ||| (x >>> (32 - n))

/-- `BE32(b0,b1,b2,b3) = b0 || b1 || b2 || b3` (00_scope.md R13). -/
def be32 (b0 b1 b2 b3 : Byte) : Word := b0 ++ b1 ++ b2 ++ b3

/-- The eight bytes of a 64-bit value, most significant first (40_sm3_digest.md R115). -/
def be64Bytes (l : BitVec 64) : List Byte :=
  (List.range 8).map fun i => l.extractLsb' (56 - 8 * i) 8

/-! ## Byte windows (20_memory.md R64) -/

/-- Byte `j` of a byte window: `WIN[j div 4][31 - 8*(j mod 4) : 24 - 8*(j mod 4)]`. -/
def windowByte (win : Vector Word 16) (j : Nat) : Byte :=
  (win[j / 4]?.getD 0).extractLsb' (24 - 8 * (j % 4)) 8

/-- "A command that takes `NB` bytes from the window takes bytes 0 to `NB-1` in that order." -/
def windowBytes (win : Vector Word 16) (nb : Nat) : List Byte :=
  (List.range nb).map (windowByte win)

/-- Byte `j` of the digest: `V[j div 4][31 - 8*(j mod 4) : 24 - 8*(j mod 4)]` (40_sm3_digest.md R117). -/
def digestByte (v : Vector Word 8) (j : Nat) : Byte :=
  (v[j / 4]?.getD 0).extractLsb' (24 - 8 * (j % 4)) 8

/-- The 32 bytes of the digest (40_sm3_digest.md R117). -/
def digestBytes (v : Vector Word 8) : List Byte := (List.range 32).map (digestByte v)

/-! ## Wide windows (20_memory.md R63): `n` words, the most significant at the lowest offset -/

/-- Word `k` of a window of `n` words: `X[32n-1-32k : 32n-32-32k]`. -/
def wideWord {w : Nat} (n : Nat) (x : BitVec w) (k : Nat) : Word :=
  x.extractLsb' (32 * (n - 1 - k)) 32

/-- The window with word `k` replaced by `v` and the other words as they were ("Each word is read and written alone"). -/
def wideSet {w : Nat} (n : Nat) (x : BitVec w) (k : Nat) (v : Word) : BitVec w :=
  let sh := 32 * (n - 1 - k)
  (x &&& ~~~((BitVec.allOnes 32).setWidth w <<< sh)) ||| (v.setWidth w <<< sh)

/-! ## The pending buffer -/

/-- `BUF[start ..] <- m` (40_sm3_digest.md R112): the bytes of `m` from index `start` on, the others kept. -/
def bufWrite (buf : Vector Byte 64) (start : Nat) (m : List Byte) : Vector Byte 64 :=
  Vector.ofFn fun i => if start ≤ i.val ∧ i.val < start + m.length then m.getD (i.val - start) 0 else buf[i]

/-- A byte string of 64 bytes as a block. -/
def blockOf (m : List Byte) : Vector Byte 64 := Vector.ofFn fun i => m.getD i.val 0

end Sys2Proof.Machine
end

