-- ==== Sys2Proof/Syntax.lean ====
section
/-! DEFINITION. The eleven commands of the engine (30_encoding.md R93, R94; spec/opcode_table.json), one constructor
per row of the table, and the two units that take them. -/

namespace Sys2Proof

/-- The two units (00_scope.md R1). -/
inductive UnitId where
  | sm3
  | sm2
deriving DecidableEq, Repr, Inhabited

/-- A command. `nb` is the byte count `NB`, the only immediate (30_encoding.md R91); every other operand is implicit
(30_encoding.md R97). -/
inductive Instr where
  /-- SM3.RESET (40_sm3_digest.md R111). -/
  | sm3Reset
  /-- SM3.ABSORB `NB` (40_sm3_digest.md R112). -/
  | sm3Absorb (nb : Nat)
  /-- SM3.FINALIZE (40_sm3_digest.md R115). -/
  | sm3Finalize
  /-- SM2.RESET (42_sm2_signer.md R176). -/
  | sm2Reset
  /-- SM2.LOAD_PRIV (42_sm2_signer.md R177). -/
  | sm2LoadPriv
  /-- SM2.LOAD_PUB (42_sm2_signer.md R178). -/
  | sm2LoadPub
  /-- SM2.MSG_CLEAR (42_sm2_signer.md R179). -/
  | sm2MsgClear
  /-- SM2.MSG_ABSORB `NB` (42_sm2_signer.md R180). -/
  | sm2MsgAbsorb (nb : Nat)
  /-- SM2.SIGN (42_sm2_signer.md R182). -/
  | sm2Sign
  /-- SM2.VERIFY (42_sm2_signer.md R188). -/
  | sm2Verify
  /-- SM2.MULADD (43_ec_muladd.md R212). -/
  | sm2Muladd
deriving DecidableEq, Repr

/-- The unit whose CMD register the command's word is written to (30_encoding.md R99). -/
def Instr.unit : Instr → UnitId
  | .sm3Reset => .sm3
  | .sm3Absorb _ => .sm3
  | .sm3Finalize => .sm3
  | .sm2Reset => .sm2
  | .sm2LoadPriv => .sm2
  | .sm2LoadPub => .sm2
  | .sm2MsgClear => .sm2
  | .sm2MsgAbsorb _ => .sm2
  | .sm2Sign => .sm2
  | .sm2Verify => .sm2
  | .sm2Muladd => .sm2

end Sys2Proof
end

