-- ==== Sys2Proof/WellFormed.lean ====
section
/-! DEFINITION. Which terms of `Instr` are commands of the hardware. -/

namespace Sys2Proof

/-- "Legal values are 0 to 64 for ABSORB and MSG_ABSORB" (30_encoding.md R91); the other commands carry no count. -/
def Instr.wf : Instr → Bool
  | .sm3Reset => true
  | .sm3Absorb nb => decide (nb ≤ 64)
  | .sm3Finalize => true
  | .sm2Reset => true
  | .sm2LoadPriv => true
  | .sm2LoadPub => true
  | .sm2MsgClear => true
  | .sm2MsgAbsorb nb => decide (nb ≤ 64)
  | .sm2Sign => true
  | .sm2Verify => true
  | .sm2Muladd => true

end Sys2Proof
end

