-- ==== Sys2Proof/Decode.lean ====
section
/-! DEFINITION. Command words: the fields, the opcode map, the decoder (total, rejecting by name), and after it the
encoder, both from the tables of 30_encoding.md. -/

namespace Sys2Proof

/-! ## The word's fields (30_encoding.md R90) -/

/-- `OP = v[7:0]`. -/
def fieldOp (v : Word) : BitVec 8 := v.extractLsb' 0 8

/-- `NB = zext_32(v[14:8])`, as a count. -/
def fieldNb (v : Word) : Nat := (v.extractLsb' 8 7).toNat

/-- `RSV = v[31:15]`. -/
def fieldRsv (v : Word) : BitVec 17 := v.extractLsb' 15 17

/-- What an opcode of a unit's map stands for: a command without a byte count, or one that takes `NB`. -/
inductive OpcodeMeaning where
  | plain (i : Instr)
  | counted (i : Nat → Instr)

/-- The opcode maps of 30_encoding.md R93 (SM3) and R94 (SM2). "Every other value of `OP` is illegal". -/
def opcodeMap : UnitId → BitVec 8 → Option OpcodeMeaning
  | .sm3, op =>
    if op = 0x01 then some (.plain .sm3Reset)
    else if op = 0x02 then some (.counted .sm3Absorb)
    else if op = 0x03 then some (.plain .sm3Finalize)
    else none
  | .sm2, op =>
    if op = 0x01 then some (.plain .sm2Reset)
    else if op = 0x10 then some (.plain .sm2LoadPriv)
    else if op = 0x11 then some (.plain .sm2LoadPub)
    else if op = 0x20 then some (.plain .sm2MsgClear)
    else if op = 0x21 then some (.counted .sm2MsgAbsorb)
    else if op = 0x30 then some (.plain .sm2Sign)
    else if op = 0x31 then some (.plain .sm2Verify)
    else if op = 0x40 then some (.plain .sm2Muladd)
    else none

/-- Why a word is no legal command of the unit (30_encoding.md R92, R95). The unit reports all four as `ILLEGAL_CMD`
(60_exceptions.md R232). -/
inductive DecodeError where
  /-- `RSV != 0` (R92). -/
  | reservedBits
  /-- The opcode is not in the unit's table (R93, R94). -/
  | unassignedOpcode
  /-- `NB != 0` in a command that takes no count (R95). -/
  | countNotTaken
  /-- `NB > 64` (R95). -/
  | countTooLarge
deriving DecidableEq, Repr

/-- The decoder of one unit: total on every word. -/
def decode (u : UnitId) (v : Word) : Except DecodeError Instr :=
  if fieldRsv v ≠ 0 then .error .reservedBits
  else match opcodeMap u (fieldOp v) with
    | none => .error .unassignedOpcode
    | some (.plain i) => if fieldNb v = 0 then .ok i else .error .countNotTaken
    | some (.counted i) => if fieldNb v ≤ 64 then .ok (i (fieldNb v)) else .error .countTooLarge

/-- `legal(U, v)` as 30_encoding.md R95 writes it, apart from the decoder. -/
def legal (u : UnitId) (v : Word) : Bool :=
  let op := fieldOp v
  let assigned : List (BitVec 8) := match u with
    | .sm3 => [0x01, 0x02, 0x03]
    | .sm2 => [0x01, 0x10, 0x11, 0x20, 0x21, 0x30, 0x31, 0x40]
  let absorbs : Bool := match u with
    | .sm3 => op == 0x02
    | .sm2 => op == 0x21
  fieldRsv v == 0 && assigned.contains op && (if absorbs then decide (fieldNb v ≤ 64) else fieldNb v == 0)

/-! ## The encoder -/

/-- The opcode of a command (30_encoding.md R93, R94). -/
def Instr.opcode : Instr → BitVec 8
  | .sm3Reset => 0x01
  | .sm3Absorb _ => 0x02
  | .sm3Finalize => 0x03
  | .sm2Reset => 0x01
  | .sm2LoadPriv => 0x10
  | .sm2LoadPub => 0x11
  | .sm2MsgClear => 0x20
  | .sm2MsgAbsorb _ => 0x21
  | .sm2Sign => 0x30
  | .sm2Verify => 0x31
  | .sm2Muladd => 0x40

/-- The byte count of a command, 0 where it takes none (30_encoding.md R91). -/
def Instr.count : Instr → Nat
  | .sm3Absorb nb => nb
  | .sm2MsgAbsorb nb => nb
  | .sm3Reset => 0
  | .sm3Finalize => 0
  | .sm2Reset => 0
  | .sm2LoadPriv => 0
  | .sm2LoadPub => 0
  | .sm2MsgClear => 0
  | .sm2Sign => 0
  | .sm2Verify => 0
  | .sm2Muladd => 0

/-- The command's word: `RSV = 0`, `NB`, `OP` (30_encoding.md R90, R99). -/
def encode (i : Instr) : Word :=
  (0#17 ++ BitVec.ofNat 7 i.count ++ i.opcode : BitVec (17 + 7 + 8))

/-- The RESET word of either unit (30_encoding.md R98). -/
def resetWord : Word := 0x00000001

/-! ## The opcode table's words -/

/-- The unit a bare word of the opcode table is given to: the table's rows carry the unit outside the word
(`"unit"`, `"cmd_offset"`), so a word is taken for the SM3 unit where it is legal there, for the SM2 unit where it is
legal there only, and for the SM3 unit where it is legal on neither, so that its `ILLEGAL_CMD` shows in `SM3_STATUS`.
DESIGN CHOICE, log entry 16: the spec has no word without a unit. The one word legal on both is 0x00000001. -/
def tableUnit (v : Word) : UnitId :=
  match decode .sm3 v with
  | .ok _ => .sm3
  | .error _ => match decode .sm2 v with
    | .ok _ => .sm2
    | .error _ => .sm3

/-- The command the decoder reads from a table word `w` of `nbits` bits: the word itself, as a bus write carries it
(30_encoding.md R90: "every command is one 32-bit write"). -/
def decodeTableWord (nbits w : Nat) : Option Instr :=
  let v : Word := BitVec.ofNat 32 (w % 2 ^ nbits)
  match decode (tableUnit v) v with
  | .ok i => some i
  | .error _ => none

end Sys2Proof
end

