-- ==== Sys2Proof/Machine/Arith.lean ====
section
/-! DEFINITION. The big-integer operations of 00_scope.md R12, R13 ("exact operations on unbounded integers",
42_sm2_signer.md R171). Addition, multiplication and `mod N` on naturals are Lean's own. -/

namespace Sys2Proof.Machine

/-- `bitlen(a)`: "the number of bits of `a` without leading zeros; `bitlen(0) = 0`" (00_scope.md R12). -/
def bitlen (a : Nat) : Nat := if a = 0 then 0 else a.log2 + 1

/-- `bit(a, i)`: "`(a >> i) mod 2`" (00_scope.md R12). -/
def bitOf (a i : Nat) : Nat := (a >>> i) % 2

/-- The extended Euclidean descent: `s0`, `s1` stay coefficients with `s * a` congruent to the remainder beside them.
The fuel only bounds the recursion; `Nat` fuel above the second remainder is enough. -/
def euclid : Nat → Nat → Nat → Int → Int → Int
  | 0, _, _, s0, _ => s0
  | fuel + 1, r0, r1, s0, s1 =>
    if r1 = 0 then s0
    else euclid fuel r1 (r0 % r1) s1 (s0 - (r0 / r1 : Nat) * s1)

/-- `inv_N(a)`: "the unique `x` in `[1, N-1]` with `(a * x) mod N = 1`; it is defined only when `a mod N != 0`"
(00_scope.md R12); nothing uses its value elsewhere. -/
def invMod (n a : Nat) : Nat := (euclid (n + 1) n (a % n) 0 1 % (n : Int)).toNat

/-- `(k - x) mod N`, the residue in `[0, N-1]` (00_scope.md R12). -/
def subMod (n k x : Nat) : Nat := (((k : Int) - (x : Int)) % (n : Int)).toNat

/-- `BEINT(m)`: the bytes as a big-endian unsigned integer, `BEINT(empty) = 0` (00_scope.md R13). -/
def beInt (m : List (BitVec 8)) : Nat := m.foldl (fun acc b => acc * 256 + b.toNat) 0

end Sys2Proof.Machine
end

