-- ==== Sys2Proof/Machine/Constants.lean ====
section
/-! DEFINITION. The fixed constants of the SM3 unit, under the name Config: "A model should make `IV` a named
configuration constant" (10_state.md R21). They stand in this folder so that a later repair could mend one. -/

namespace Sys2Proof

/-- `IV`, the eight initial constants (10_state.md R21; 92 D12: from general knowledge there, log entry 13). -/
def Config.iv : Vector Word 8 :=
  #v[0x7380166F, 0x4914B2B9, 0x172442D7, 0xDA8A0600, 0xA96F30BC, 0x163138AA, 0xE38DEE4D, 0xB0FB0E4E]

/-- The round constant of rounds 0 to 15 (41_sm3_compression.md R147). -/
def Config.t1 : Word := 0x79CC4519

/-- The round constant of rounds 16 to 63 (41_sm3_compression.md R147). -/
def Config.t2 : Word := 0x7A879D8A

end Sys2Proof
end

