-- ==== Sys2Proof/Config.lean ====
section
/-! DEFINITION. What the platform fixes and what the spec leaves free: the curve capability (00_scope.md R8;
42_sm2_signer.md R170, R173), the agents (00_scope.md R15), and the free values, each an opaque constant with no body. -/

namespace Sys2Proof

/-! ## The curve capability -/

/-- `Pt`, "the type of curve points" (00_scope.md R8), a parameter of the spec. A point is known by a number that names it
and means nothing else; since `PTENC` tells points apart in 1024 bits, numbers are names enough (log entry 6). -/
structure Pt where
  id : Nat
deriving DecidableEq, Repr, Inhabited

/-- The curve capability's operations and parameters (00_scope.md R8; 42_sm2_signer.md R170, R173): "pure, total functions
of their operands". No law is asked here; see `Curve.Lawful`. -/
structure Curve where
  /-- `INF`, the distinguished infinity value. -/
  inf : Pt
  /-- The base point `G`. -/
  G : Pt
  /-- The group order `N`. -/
  N : Nat
  /-- `ec_add(P, Q)`. -/
  ecAdd : Pt → Pt → Pt
  /-- `ec_dbl(P)`. -/
  ecDbl : Pt → Pt
  /-- `ec_mul(k, P)`, `k >= 0`. -/
  ecMul : Nat → Pt → Pt
  /-- `ec_x(P)`, the x-coordinate, an unsigned integer. -/
  ecX : Pt → Nat
  /-- `ec_eq(P, Q)`. -/
  ecEq : Pt → Pt → Bool
  /-- `PTENC`: how a point is written into a point window. -/
  ptEnc : Pt → BitVec 1024
  /-- `PTDEC`: the point a point window encodes, if any. -/
  ptDec : BitVec 1024 → Option Pt

/-- `NBITS = bitlen(N)` (00_scope.md R8). -/
def Curve.nbits (c : Curve) : Nat := Machine.bitlen c.N

/-- The names that stand for a point of the capability: those with "`PTDEC(PTENC(P)) = P` for every point `P`"
(42_sm2_signer.md R173). -/
def Curve.IsPoint (c : Curve) (P : Pt) : Prop := c.ptDec (c.ptEnc P) = some P

/-- What the spec assumes of the capability (00_scope.md R8; 42_sm2_signer.md R170, R173; 92 D17, D27), and no more.
`order_odd` is "a large prime" (R8) read as: not 2. DEDUCED, log entry 5. -/
structure Curve.Lawful (c : Curve) : Prop where
  order_prime : c.N.Prime
  order_odd : 2 < c.N
  nbits_le : c.nbits ≤ 511
  inf_point : c.IsPoint c.inf
  base_point : c.IsPoint c.G
  add_point : ∀ P Q, c.IsPoint P → c.IsPoint Q → c.IsPoint (c.ecAdd P Q)
  dbl_point : ∀ P, c.IsPoint P → c.IsPoint (c.ecDbl P)
  mul_point : ∀ k P, c.IsPoint P → c.IsPoint (c.ecMul k P)
  dec_point : ∀ v P, c.ptDec v = some P → c.IsPoint P
  inf_add : ∀ P, c.IsPoint P → c.ecAdd c.inf P = P
  add_inf : ∀ P, c.IsPoint P → c.ecAdd P c.inf = P
  dbl_inf : c.ecDbl c.inf = c.inf
  eq_iff : ∀ P Q, c.IsPoint P → c.IsPoint Q → (c.ecEq P Q = true ↔ P = Q)
  base_order : c.ecMul c.N c.G = c.inf
  base_mul_ne : ∀ k, 1 ≤ k → k < c.N → c.ecMul k c.G ≠ c.inf

/-- "an abelian group with identity `INF`, with `ec_dbl(P) = ec_add(P, P)` and `ec_mul(k, P)` the `k`-fold sum"
(43_ec_muladd.md R211): a premise of the correctness laws (R193, R211), "not a property of every configuration". -/
structure Curve.IsGroup (c : Curve) : Prop where
  add_assoc : ∀ P Q R, c.IsPoint P → c.IsPoint Q → c.IsPoint R →
    c.ecAdd (c.ecAdd P Q) R = c.ecAdd P (c.ecAdd Q R)
  add_comm : ∀ P Q, c.IsPoint P → c.IsPoint Q → c.ecAdd P Q = c.ecAdd Q P
  exists_neg : ∀ P, c.IsPoint P → ∃ Q, c.IsPoint Q ∧ c.ecAdd P Q = c.inf
  dbl_eq : ∀ P, c.IsPoint P → c.ecDbl P = c.ecAdd P P
  mul_zero : ∀ P, c.IsPoint P → c.ecMul 0 P = c.inf
  mul_succ : ∀ k P, c.IsPoint P → c.ecMul (k + 1) P = c.ecAdd (c.ecMul k P) P

/-- A capability together with the premises of D27. -/
structure LawfulCurve extends Curve where
  lawful : toCurve.Lawful

/-- The residues modulo `n` under addition as a capability. It shows that the premises can be met; it is no curve of the
spec and no statement about the engine rests on it. -/
def residueCurve (n : Nat) : Curve where
  inf := ⟨0⟩
  G := ⟨1⟩
  N := n
  ecAdd P Q := ⟨(P.id + Q.id) % n⟩
  ecDbl P := ⟨(P.id + P.id) % n⟩
  ecMul k P := ⟨(k * P.id) % n⟩
  ecX P := P.id
  ecEq P Q := decide (P = Q)
  ptEnc P := BitVec.ofNat 1024 P.id
  ptDec v := if v.toNat < n then some ⟨v.toNat⟩ else none

theorem residueCurve_isPoint (n : Nat) (hn : n ≤ 2 ^ 200) (P : Pt) :
    (residueCurve n).IsPoint P ↔ P.id < n := by
  unfold Curve.IsPoint residueCurve
  simp only [BitVec.toNat_ofNat]
  constructor
  · intro h
    split at h
    · rename_i hlt
      have := congrArg (Option.map Pt.id) h
      simp only [Option.map_some, Option.some.injEq] at this
      omega
    · cases h
  · intro h
    have hm : P.id % 2 ^ 1024 = P.id := Nat.mod_eq_of_lt
      (Nat.lt_of_lt_of_le (Nat.lt_of_lt_of_le h hn) (Nat.pow_le_pow_right (by decide) (by decide)))
    rw [hm, if_pos h]

theorem residueCurve_lawful (n : Nat) (hp : n.Prime) (hn : 2 < n) (hb : (residueCurve n).nbits ≤ 511)
    (hle : n ≤ 2 ^ 200) : (residueCurve n).Lawful := by
  have pt := residueCurve_isPoint n hle
  have pos : 0 < n := by omega
  refine ⟨hp, hn, hb, ?_, ?_, ?_, ?_, ?_, ?_, ?_, ?_, ?_, ?_, ?_, ?_⟩
  · rw [pt]; exact pos
  · rw [pt]; exact hp.one_lt
  · intro P Q _ _; rw [pt]; exact Nat.mod_lt _ pos
  · intro P _; rw [pt]; exact Nat.mod_lt _ pos
  · intro k P _; rw [pt]; exact Nat.mod_lt _ pos
  · intro v P h
    rw [pt]
    simp only [residueCurve] at h
    split at h
    · cases h; assumption
    · cases h
  · intro P h
    rw [pt] at h
    simp only [residueCurve, Nat.zero_add, Nat.mod_eq_of_lt h]
  · intro P h
    rw [pt] at h
    simp only [residueCurve, Nat.add_zero, Nat.mod_eq_of_lt h]
  · simp only [residueCurve, Nat.add_zero, Nat.zero_mod]
  · intro P Q _ _; simp only [residueCurve, decide_eq_true_eq]
  · simp only [residueCurve, Nat.mul_one, Nat.mod_self]
  · intro k h1 hk h
    simp only [residueCurve, Nat.mul_one, Pt.mk.injEq] at h hk
    rw [Nat.mod_eq_of_lt hk] at h
    omega

/-- Some lawful capability, so that `Config.curve` has a value whatever the platform connects. -/
def residueLawful : LawfulCurve where
  toCurve := residueCurve 7
  lawful := residueCurve_lawful 7 (by norm_num) (by norm_num) (by decide) (by norm_num)

/-- The capability the platform connects (70_reset_and_hazards.md R267 (1)): unknown. -/
opaque Config.connected : Option LawfulCurve

/-- The configured capability: an unknown lawful one (00_scope.md R8; log entry 5). Nothing in Lean can tell which; `connected`
is an option only because Lean asks that a constant without a body have a value at all. -/
def Config.lawfulCurve : LawfulCurve := Config.connected.getD residueLawful

/-- The curve capability of the machine. -/
def Config.curve : Curve := Config.lawfulCurve.toCurve

theorem Config.curve_lawful : Config.curve.Lawful := Config.lawfulCurve.lawful

/-! ## Agents and free values -/

/-- Who can make the next move (00_scope.md R15; 70_reset_and_hazards.md R260 for the reset input). -/
inductive Agent where
  /-- The host performs its next bus access. -/
  | host
  /-- The SM3 unit takes a completion step, if it is busy. -/
  | sm3
  /-- The SM2 unit takes a completion step, if it is busy. -/
  | sm2
  /-- The randomness source has one more answer ready. -/
  | rng
  /-- The reset input is asserted. -/
  | resetPin
deriving DecidableEq, Repr, Inhabited

/-- Whose move it is where no turn is laid down: "any interleaving" (93 U21, U22; 60_exceptions.md R242). Free. -/
opaque Config.turn : Nat → Agent

/-- The next answer of the randomness source, before it is brought into range (42_sm2_signer.md R172; 93 U19). Free. -/
opaque Config.answer : Nat → Nat

/-- What a read of a result register returns while its unit is busy (70_reset_and_hazards.md R265; 93 U1). Free. -/
opaque Config.busyRead : Nat → Word

/-- What `BUF` holds after FINALIZE (40_sm3_digest.md R118; 93 U23). Free. -/
opaque Config.bufAfterFinalize : Nat → Vector Byte 64

end Sys2Proof
end

