-- ==== Sys2Proof/Machine/State.lean ====
section
/-! DEFINITION. The state of the engine (10_state.md), the inputs it is given, the reasons a step can stop, and the state
after reset. Plain data. -/

namespace Sys2Proof.Machine

/-- The error codes of 60_exceptions.md R231. "Codes 7 to 15 are never written" (R238): there are no others. -/
inductive ErrCode where
  /-- 0: the command completed normally. -/
  | ok
  /-- 1: the command word is not legal on the unit (R232). -/
  | illegalCmd
  /-- 2: not allowed in the unit's lifecycle state (R233). -/
  | sequence
  /-- 3: the key mode does not allow the command (R234). -/
  | modeErr
  /-- 4: the private key is not in `(0, N)` (R235). -/
  | keyRange
  /-- 5: `(D + 1)` has no inverse modulo `N` (R236). -/
  | noInverse
  /-- 6: a point window encodes no point (R237). -/
  | badPoint
deriving DecidableEq, Repr

/-- `MODE` (10_state.md R28): "encoding 3 never occurs". -/
inductive Mode where
  | none
  | sign
  | verify
deriving DecidableEq, Repr

/-- `MODE`, `D` and `Q` together (10_state.md R28 to R30): no key, a private key with the derived point, or a public point
alone: "exactly one of two mutually exclusive modes", or none yet. Log entry 7. -/
inductive Key where
  /-- `MODE = NONE`, `D = 0`, `Q` none. -/
  | empty
  /-- `MODE = SIGN` with `D` and `Q`. -/
  | signing (d : Nat) (q : Pt)
  /-- `MODE = VERIFY` with `Q`; `D = 0`. -/
  | verifying (q : Pt)
deriving DecidableEq, Repr

/-- The SM3 unit's state (10_state.md R20 to R27). -/
structure Sm3 where
  /-- `V[0..7]` (R20). -/
  v : Vector Word 8
  /-- `CNT[63:32]` (R22). -/
  cntHi : Word
  /-- `CNT[31:0]` (R22). -/
  cntLo : Word
  /-- `BUF[0..63]` (R23). -/
  buf : Vector Byte 64
  /-- `FILL` (R24). -/
  fill : Nat
  /-- `FINAL` (R25). -/
  final : Bool
  /-- `BUSY` (R26). -/
  busy : Bool
  /-- `ERR` (R26). -/
  err : ErrCode
  /-- `OVR` (R26). -/
  ovr : Bool
  /-- `PEND` (R26), the command word in flight. -/
  pend : Word
  /-- `DIN[0..15]` (R27). -/
  din : Vector Word 16
deriving DecidableEq, Repr

/-- The SM2 unit's state (10_state.md R28 to R37). -/
structure Sm2 where
  /-- `MODE`, `D`, `Q` (R28, R29, R30). -/
  key : Key
  /-- `EACC` (R31). -/
  eacc : Nat
  /-- `VALID` (R32). -/
  valid : Bool
  /-- `BUSY` (R33). -/
  busy : Bool
  /-- `ERR` (R33). -/
  err : ErrCode
  /-- `OVR` (R33). -/
  ovr : Bool
  /-- `PEND` (R33). -/
  pend : Word
  /-- `OP0` (R34). -/
  op0 : BitVec 512
  /-- `OP1` (R34). -/
  op1 : BitVec 512
  /-- `MSG[0..15]` (R35). -/
  msg : Vector Word 16
  /-- `PT0` (R36). -/
  pt0 : BitVec 1024
  /-- `PT1` (R36). -/
  pt1 : BitVec 1024
  /-- `RS0` (R37). -/
  rs0 : BitVec 512
  /-- `RS1` (R37). -/
  rs1 : BitVec 512
  /-- `RPT` (R37). -/
  rpt : BitVec 1024
deriving DecidableEq, Repr

/-- A statement of a host program (30_encoding.md R100): one bus access, or a POLL loop. `width` is the access width in
bits and `offset` the place in the 4096-byte register space (20_memory.md R60, R61). -/
inductive Stmt where
  /-- A bus read. -/
  | read (width : Nat) (offset : BitVec 12)
  /-- A bus write of `v`. -/
  | write (width : Nat) (offset : BitVec 12) (v : Word)
  /-- `POLL U`: read the unit's STATUS until bit 0 is 0. -/
  | poll (u : UnitId)
deriving DecidableEq, Repr

/-- The engine and the inputs it is given. -/
structure State where
  /-- The SM3 unit. -/
  sm3 : Sm3
  /-- The SM2 unit. -/
  sm2 : Sm2
  /-- Model's own: the host's statements still to be performed, in order (20_memory.md R69). -/
  program : List Stmt
  /-- Model's own: the words the host's reads were answered with, newest first. -/
  seen : List Word
  /-- Model's own: answers of the randomness source not yet drawn, oldest first (42_sm2_signer.md R172). -/
  answers : List Nat
  /-- Model's own: whose move comes next, and after it; past the end it is free (93 U22). -/
  turns : List Agent
  /-- Model's own: how many free values were taken so far. -/
  free : Nat
deriving DecidableEq, Repr

/-- Why a step stops with a fault: the four bus errors of 60_exceptions.md R239 ("A model should make a bus-error access a
fault of the host program"). Raised by the host's read or write only. Safe: the engine's state does not change on a bus error,
and the model ends the run where a host might go on (log entry 11). -/
inductive Fault where
  /-- An access narrower or wider than 32 bits (20_memory.md R61). Raised by a host read or write. Safe. -/
  | busWidth
  /-- An access at an offset that is not a multiple of 4 (20_memory.md R61). Raised by a host read or write. Safe. -/
  | busMisaligned
  /-- An access at a reserved offset (10_state.md R59). Raised by a host read or write. Safe. -/
  | busReserved
  /-- A write to a read-only register (20_memory.md R66). Raised by a host write. Safe. -/
  | busReadOnly
deriving DecidableEq, Repr

/-- Why a step has no meaning. -/
inductive Refusal where
  /-- The command of that mnemonic is not modelled: raised by no arm of this model. Safe. -/
  | notModelled (mnemonic : String)
deriving DecidableEq, Repr

/-- The SM3 unit after a hardware reset (70_reset_and_hazards.md R260, R261). `PEND` is 0 by DESIGN CHOICE, log entry 14. -/
def Sm3.reset : Sm3 where
  v := Config.iv
  cntHi := 0
  cntLo := 0
  buf := Vector.replicate 64 0
  fill := 0
  final := false
  busy := false
  err := .ok
  ovr := false
  pend := 0
  din := Vector.replicate 16 0

/-- The SM2 unit after a hardware reset (70_reset_and_hazards.md R260, R262). `PEND` is 0 by DESIGN CHOICE, log entry 14. -/
def Sm2.reset : Sm2 where
  key := .empty
  eacc := 0
  valid := false
  busy := false
  err := .ok
  ovr := false
  pend := 0
  op0 := 0
  op1 := 0
  msg := Vector.replicate 16 0
  pt0 := 0
  pt1 := 0
  rs0 := 0
  rs1 := 0
  rpt := 0

/-- The machine right after reset: both units as R260 says; no program, no answer and no turn laid down (log entries 2, 3, 8;
DESIGN CHOICE). -/
def State.reset : State where
  sm3 := .reset
  sm2 := .reset
  program := []
  seen := []
  answers := []
  turns := []
  free := 0

end Sys2Proof.Machine
end

