-- ==== Sys2Proof/Machine/Flags.lean ====
section
/-! DEFINITION. Codes and status words: every flag the spec gives, and where it stands in its unit's STATUS. -/

namespace Sys2Proof.Machine

/-- The 4-bit code of an error (60_exceptions.md R231). -/
def ErrCode.code : ErrCode → BitVec 4
  | .ok => 0
  | .illegalCmd => 1
  | .sequence => 2
  | .modeErr => 3
  | .keyRange => 4
  | .noInverse => 5
  | .badPoint => 6

/-- The 2-bit encoding of `MODE` (10_state.md R28). -/
def Mode.code : Mode → BitVec 2
  | .none => 0
  | .sign => 1
  | .verify => 2

/-- `MODE` (10_state.md R28). -/
def Key.mode : Key → Mode
  | .empty => .none
  | .signing _ _ => .sign
  | .verifying _ => .verify

/-- `D`: "0 otherwise" than in MODE SIGN (10_state.md R29). -/
def Key.d : Key → Nat
  | .empty => 0
  | .signing d _ => d
  | .verifying _ => 0

/-- `Q`, none in MODE NONE (10_state.md R30). -/
def Key.q : Key → Option Pt
  | .empty => none
  | .signing _ q => some q
  | .verifying q => some q

/-- `MODE` of the unit. -/
def Sm2.mode (u : Sm2) : Mode := u.key.mode

/-- `D` of the unit. -/
def Sm2.d (u : Sm2) : Nat := u.key.d

/-- `Q` of the unit. -/
def Sm2.q (u : Sm2) : Option Pt := u.key.q

/-- `CNT = CNT_HI || CNT_LO` (10_state.md R22). -/
def Sm3.cnt (u : Sm3) : BitVec 64 := u.cntHi ++ u.cntLo

/-- A value put at bit `lo` of a 32-bit register whose other bits read 0. -/
def fieldAt {w : Nat} (lo : Nat) (x : BitVec w) : Word := x.setWidth 32 <<< lo

/-- `SM3_STATUS`: BUSY[0], FINAL[1], OVR[2], ERR[11:8] (10_state.md R41). -/
def Sm3.status (u : Sm3) : Word :=
  fieldAt 0 (BitVec.ofBool u.busy) ||| fieldAt 1 (BitVec.ofBool u.final) ||| fieldAt 2 (BitVec.ofBool u.ovr)
    ||| fieldAt 8 u.err.code

/-- `SM2_STATUS`: BUSY[0], OVR[2], VALID[3], MODE[5:4], ERR[11:8] (10_state.md R48). -/
def Sm2.status (u : Sm2) : Word :=
  fieldAt 0 (BitVec.ofBool u.busy) ||| fieldAt 2 (BitVec.ofBool u.ovr) ||| fieldAt 3 (BitVec.ofBool u.valid)
    ||| fieldAt 4 u.mode.code ||| fieldAt 8 u.err.code

end Sys2Proof.Machine
end

