-- ==== Sys2Proof/Machine/Ops.lean ====
section
/-! DEFINITION. The operations the commands share: how a command ends (30_encoding.md R98; 60_exceptions.md R230), the unit
resets (70_reset_and_hazards.md R260 to R262), issue and the dropped write (30_encoding.md R98; 70 R264). The engine has no trap
entry and no return from one (60_exceptions.md R245): `raise CmdError` is what it has in their place. There is no memory
(20_memory.md R60), so there are no operations over one. -/

namespace Sys2Proof.Machine

/-! ## Updates of State, one per field -/

/-- The state with another SM3 unit. -/
def State.withSm3 (s : State) (u : Sm3) : State := { s with sm3 := u }

/-- The state with another SM2 unit. -/
def State.withSm2 (s : State) (u : Sm2) : State := { s with sm2 := u }

/-- The state with another rest of the host's program. -/
def State.withProgram (s : State) (p : List Stmt) : State := { s with program := p }

/-- The state after the host was answered `x`. -/
def State.see (s : State) (x : Word) : State := { s with seen := x :: s.seen }

/-- The state with other answers to come. -/
def State.withAnswers (s : State) (a : List Nat) : State := { s with answers := a }

/-- The state with other turns to come. -/
def State.withTurns (s : State) (t : List Agent) : State := { s with turns := t }

/-- The state after one free value was taken. -/
def State.tick (s : State) : State := { s with free := s.free + 1 }

/-! ## How a command ends -/

/-- The end of an SM3 completion (30_encoding.md R98): "if the rule raises CmdError(c): U.ERR <- c, and the rule's writes are not
made; else: U.ERR <- OK (0), and the rule's writes are made; U.BUSY <- 0". -/
def Sm3.finish (u : Sm3) : Except ErrCode Sm3 → Sm3
  | .error c => { u with err := c, busy := false }
  | .ok u' => { u' with err := .ok, busy := false }

/-- The end of an SM2 completion (30_encoding.md R98), as `Sm3.finish`. -/
def Sm2.finish (u : Sm2) : Except ErrCode Sm2 → Sm2
  | .error c => { u with err := c, busy := false }
  | .ok u' => { u' with err := .ok, busy := false }

/-- `raise CmdError(c)` on a unit (00_scope.md R14; 60_exceptions.md R230): the unit's ERR gets the code, BUSY returns to 0,
nothing else changes. -/
def State.raise (s : State) (u : UnitId) (c : ErrCode) : State :=
  match u with
  | .sm3 => s.withSm3 (s.sm3.finish (.error c))
  | .sm2 => s.withSm2 (s.sm2.finish (.error c))

/-! ## Resets -/

/-- `unit_reset(SM3)` (70_reset_and_hazards.md R261). `DIN` is kept; a pending completion is cancelled by BUSY going to 0;
`PEND`, unread while BUSY is 0, is kept (log entry 14). -/
def Sm3.unitReset (u : Sm3) : Sm3 :=
  { u with
    v := Config.iv, cntHi := 0, cntLo := 0, buf := Vector.replicate 64 0, fill := 0, final := false
    err := .ok, ovr := false, busy := false }

/-- `unit_reset(SM2)` (70_reset_and_hazards.md R262). `OP0`, `OP1`, `MSG`, `PT0`, `PT1` are kept; `PEND` as for the SM3 unit. -/
def Sm2.unitReset (u : Sm2) : Sm2 :=
  { u with
    key := .empty, eacc := 0, valid := false, rs0 := 0, rs1 := 0, rpt := 0
    err := .ok, ovr := false, busy := false }

/-- The hardware reset (70_reset_and_hazards.md R260): "at once and for both units", windows and all. What lies outside the
engine (the host's program, the randomness source, the turns) is not reset. -/
def State.hardReset (s : State) : State := (s.withSm3 .reset).withSm2 .reset

/-! ## Issue, dropped writes, completion of an illegal word -/

/-- Whether the unit has a command in flight (10_state.md R26, R33). -/
def State.busy (s : State) : UnitId → Bool
  | .sm3 => s.sm3.busy
  | .sm2 => s.sm2.busy

/-- The command word in flight (10_state.md R26, R33). -/
def State.pend (s : State) : UnitId → Word
  | .sm3 => s.sm3.pend
  | .sm2 => s.sm2.pend

/-- "issue: U.PEND <- v; U.BUSY <- 1" (30_encoding.md R98). -/
def State.issue (s : State) (u : UnitId) (v : Word) : State :=
  match u with
  | .sm3 => s.withSm3 { s.sm3 with pend := v, busy := true }
  | .sm2 => s.withSm2 { s.sm2 with pend := v, busy := true }

/-- A write dropped while the unit is busy: "sets its `OVR` to 1" (70_reset_and_hazards.md R264). -/
def State.dropWrite (s : State) (u : UnitId) : State :=
  match u with
  | .sm3 => s.withSm3 { s.sm3 with ovr := true }
  | .sm2 => s.withSm2 { s.sm2 with ovr := true }

end Sys2Proof.Machine
end

