-- ==== Sys2Proof/Machine/Shamir.lean ====
section
/-! DEFINITION. Simultaneous two-scalar multiplication (43_ec_muladd.md R210), over any capability. -/

namespace Sys2Proof.Machine

/-- One pass of the loop for bit index `i`: "double R", then add nothing, `P`, `Q` or the precomputed `Z` (R210). -/
def shamirPass (c : Curve) (k l : Nat) (P Q Z : Pt) (i : Nat) (R : Pt) : Pt :=
  let R2 := c.ecDbl R
  if bitOf k i = 0 ∧ bitOf l i = 0 then R2
  else if bitOf k i = 1 ∧ bitOf l i = 0 then c.ecAdd R2 P
  else if bitOf k i = 0 ∧ bitOf l i = 1 then c.ecAdd R2 Q
  else c.ecAdd R2 Z

/-- The passes for `i` from `m-1` down to 0 (R210). -/
def shamirLoop (c : Curve) (k l : Nat) (P Q Z : Pt) : Nat → Pt → Pt
  | 0, R => R
  | i + 1, R => shamirLoop c k l P Q Z i (shamirPass c k l P Q Z i R)

/-- `shamir(k, P, l, Q)` (R210). -/
def shamir (c : Curve) (k : Nat) (P : Pt) (l : Nat) (Q : Pt) : Pt :=
  let Z := c.ecAdd P Q
  let m := max (bitlen k) (bitlen l)
  shamirLoop c k l P Q Z m c.inf

end Sys2Proof.Machine
end

