-- ==== Sys2Proof/Machine/Sm2.lean ====
section
/-! DEFINITION. The meanings of the SM2 unit's commands (42_sm2_signer.md, 43_ec_muladd.md R212). Each rule is a function of
the capability `c`; the meaning takes the configured one. Order of checks: 60_exceptions.md R241. -/

namespace Sys2Proof.Machine

/-! ## SM2.RESET -/

/-- SM2.RESET: `unit_reset(SM2)` (42_sm2_signer.md R176). -/
def execSm2Reset (s : State) : Host.Outcome State Fault Refusal := .next (s.withSm2 s.sm2.unitReset)

/-! ## Keys -/

/-- The body of SM2.LOAD_PRIV (42_sm2_signer.md R177). -/
def Sm2.loadPrivRule (c : Curve) (u : Sm2) : Except ErrCode Sm2 :=
  if u.mode ≠ .none then .error .sequence
  else
    let d := u.op0.toNat
    if 0 < d ∧ d < c.N then .ok { u with key := .signing d (c.ecMul d c.G) }
    else .error .keyRange

/-- SM2.LOAD_PRIV (42_sm2_signer.md R177). -/
def execSm2LoadPriv (s : State) : Host.Outcome State Fault Refusal :=
  .next (s.withSm2 (s.sm2.finish (s.sm2.loadPrivRule Config.curve)))

/-- The body of SM2.LOAD_PUB (42_sm2_signer.md R178). -/
def Sm2.loadPubRule (c : Curve) (u : Sm2) : Except ErrCode Sm2 :=
  if u.mode ≠ .none then .error .sequence
  else match c.ptDec u.pt0 with
    | none => .error .badPoint
    | some q => .ok { u with key := .verifying q }

/-- SM2.LOAD_PUB (42_sm2_signer.md R178). -/
def execSm2LoadPub (s : State) : Host.Outcome State Fault Refusal :=
  .next (s.withSm2 (s.sm2.finish (s.sm2.loadPubRule Config.curve)))

/-! ## The message -/

/-- The body of SM2.MSG_CLEAR (42_sm2_signer.md R179). -/
def Sm2.msgClearRule (u : Sm2) : Except ErrCode Sm2 := .ok { u with eacc := 0 }

/-- SM2.MSG_CLEAR (42_sm2_signer.md R179). -/
def execSm2MsgClear (s : State) : Host.Outcome State Fault Refusal :=
  .next (s.withSm2 (s.sm2.finish s.sm2.msgClearRule))

/-- `EACC <- (EACC * 256 + byte) mod N` for each byte in order (42_sm2_signer.md R180). -/
def foldMessage (n : Nat) (eacc : Nat) (m : List Byte) : Nat :=
  m.foldl (fun acc b => (acc * 256 + b.toNat) % n) eacc

/-- The body of SM2.MSG_ABSORB (42_sm2_signer.md R180). `NB > 64` reaches it only from a term that is no command (log
entry 18). -/
def Sm2.msgAbsorbRule (c : Curve) (nb : Nat) (u : Sm2) : Except ErrCode Sm2 :=
  if 64 < nb then .error .illegalCmd
  else .ok { u with eacc := foldMessage c.N u.eacc (windowBytes u.msg nb) }

/-- SM2.MSG_ABSORB `NB` (42_sm2_signer.md R180). -/
def execSm2MsgAbsorb (nb : Nat) (s : State) : Host.Outcome State Fault Refusal :=
  .next (s.withSm2 (s.sm2.finish (s.sm2.msgAbsorbRule Config.curve nb)))

/-! ## SM2.SIGN -/

/-- One pass of the signing loop with the drawn `k` (42_sm2_signer.md R181, R182 steps a to e): the signature, or none where
the step goes back to (a). -/
def signPass (c : Curve) (d e k : Nat) : Option (Nat × Nat) :=
  if k = 0 ∨ c.N ≤ k then none
  else
    let P := c.ecMul k c.G
    let r := (e + c.ecX P) % c.N
    if r = 0 then none
    else
      let t1 := invMod c.N (d + 1)
      let t2 := subMod c.N k (r * d)
      let s := t1 * t2 % c.N
      if s = 0 then none else some (r, s)

/-- The loop over the answers of `draw()`, in order: the signature of the first answer that passes, and the answers after it.
None if no answer passes: then all of them are spent (42_sm2_signer.md R181, R185). -/
def signLoop (c : Curve) (d e : Nat) : List Nat → Option ((Nat × Nat) × List Nat)
  | [] => none
  | k :: rest =>
    match signPass c d e k with
    | some rs => some (rs, rest)
    | none => signLoop c d e rest

/-- SM2.SIGN over a capability `c` (42_sm2_signer.md R182). With no acceptable answer there is no completion: BUSY and the
rest of the unit stay (R185), and the answers drawn are spent. -/
def State.signOf (c : Curve) (s : State) : State :=
  match s.sm2.key with
  | .empty => s.raise .sm2 .modeErr
  | .verifying _ => s.raise .sm2 .modeErr
  | .signing d _ =>
    if (d + 1) % c.N = 0 then s.raise .sm2 .noInverse
    else match signLoop c d s.sm2.eacc s.answers with
      | none => s.withAnswers []
      | some ((r, t), rest) =>
        (s.withAnswers rest).withSm2 (s.sm2.finish
          (.ok { s.sm2 with rs0 := BitVec.ofNat 512 r, rs1 := BitVec.ofNat 512 t, eacc := 0 }))

/-- SM2.SIGN (42_sm2_signer.md R182). -/
def execSm2Sign (s : State) : Host.Outcome State Fault Refusal := .next (s.signOf Config.curve)

/-! ## SM2.VERIFY -/

/-- The verdict of VerifySignature (42_sm2_signer.md R188 steps 1 to 6; R189 to R191). -/
def verifySignature (c : Curve) (q : Pt) (e r s : Nat) : Bool :=
  if r < 1 ∨ s < 1 ∨ c.N < r ∨ c.N < s then false
  else
    let t := (r + s) % c.N
    let point := shamir c s c.G t q
    if c.ecEq point c.inf then false
    else
      let R := (e + c.ecX point) % c.N
      decide (R = r)

/-- The body of SM2.VERIFY (42_sm2_signer.md R188). -/
def Sm2.verifyRule (c : Curve) (u : Sm2) : Except ErrCode Sm2 :=
  match u.q with
  | none => .error .modeErr
  | some q => .ok { u with valid := verifySignature c q u.eacc u.op0.toNat u.op1.toNat, eacc := 0 }

/-- SM2.VERIFY (42_sm2_signer.md R188). -/
def execSm2Verify (s : State) : Host.Outcome State Fault Refusal :=
  .next (s.withSm2 (s.sm2.finish (s.sm2.verifyRule Config.curve)))

/-! ## SM2.MULADD -/

/-- The body of SM2.MULADD (43_ec_muladd.md R212). -/
def Sm2.muladdRule (c : Curve) (u : Sm2) : Except ErrCode Sm2 :=
  match c.ptDec u.pt0, c.ptDec u.pt1 with
  | some p, some q => .ok { u with rpt := c.ptEnc (shamir c u.op0.toNat p u.op1.toNat q) }
  | _, _ => .error .badPoint

/-- SM2.MULADD (43_ec_muladd.md R212). -/
def execSm2Muladd (s : State) : Host.Outcome State Fault Refusal :=
  .next (s.withSm2 (s.sm2.finish (s.sm2.muladdRule Config.curve)))

end Sys2Proof.Machine
end

