-- ==== Sys2Proof/Machine/Compression.lean ====
section
/-! DEFINITION. The SM3 compression function, step by step in the order of 41_sm3_compression.md (R140 to R152): a pure
function, one indivisible part of a completion step (R153). -/

namespace Sys2Proof.Machine

/-- `W[i] = BE32(B[4i], B[4i+1], B[4i+2], B[4i+3])` for `i` in 0..15 (R141). -/
def parseBlock (b : Vector Byte 64) : List Word :=
  (List.finRange 16).map fun i =>
    be32 (b[4 * i.val]'(by omega)) (b[4 * i.val + 1]'(by omega)) (b[4 * i.val + 2]'(by omega)) (b[4 * i.val + 3]'(by omega))

/-- `P0(x)` (R142). -/
def p0 (x : Word) : Word := x ^^^ rotl x 9 ^^^ rotl x 17

/-- `P1(x)` (R143). -/
def p1 (x : Word) : Word := x ^^^ rotl x 15 ^^^ rotl x 23

/-- One more word of the expansion, from the `i` words there are: `W[i] = P1(W[i-16] xor W[i-9] xor rotl(W[i-3], 15)) xor
rotl(W[i-13], 7) xor W[i-6]` (R144). -/
def nextWord (w : List Word) : Word :=
  let i := w.length
  p1 (w.getD (i - 16) 0 ^^^ w.getD (i - 9) 0 ^^^ rotl (w.getD (i - 3) 0) 15)
    ^^^ rotl (w.getD (i - 13) 0) 7 ^^^ w.getD (i - 6) 0

/-- `n` more words, in increasing index (R144). -/
def expandBy : Nat → List Word → List Word
  | 0, w => w
  | n + 1, w => expandBy n (w ++ [nextWord w])

/-- `W[0..67]` of a block (R141, R144). -/
def expand (b : Vector Byte 64) : List Word := expandBy 52 (parseBlock b)

/-- `W'[i] = W[i] xor W[i+4]` (R145). -/
def auxWord (w : List Word) (i : Nat) : Word := w.getD i 0 ^^^ w.getD (i + 4) 0

/-- The rotated round constant `T(j)` (R147). -/
def roundConst (j : Nat) : Word :=
  if j ≤ 15 then rotl Config.t1 j else rotl Config.t2 (j % 32)

/-- `FF(j, x, y, z)` (R148). -/
def ff (j : Nat) (x y z : Word) : Word :=
  if j ≤ 15 then x ^^^ y ^^^ z else (x &&& y) ||| (x &&& z) ||| (y &&& z)

/-- `GG(j, x, y, z)` (R149). -/
def gg (j : Nat) (x y z : Word) : Word :=
  if j ≤ 15 then x ^^^ y ^^^ z else (x &&& y) ||| (~~~x &&& z)

/-- The eight working registers `A..H` (R146). -/
structure Regs where
  (a b c d e f g h : Word)
deriving DecidableEq, Repr

/-- Round `j` (R150): "all right-hand sides read the registers as they stand at the start of the round". -/
def roundStep (w : List Word) (j : Nat) (r : Regs) : Regs :=
  let ss1 := rotl (rotl r.a 12 + r.e + roundConst j) 7
  let ss2 := ss1 ^^^ rotl r.a 12
  let tt1 := ff j r.a r.b r.c + r.d + ss2 + auxWord w j
  let tt2 := gg j r.e r.f r.g + r.h + ss1 + w.getD j 0
  { a := tt1, b := r.a, c := rotl r.b 9, d := r.c, e := p0 tt2, f := r.e, g := rotl r.f 19, h := r.g }

/-- Rounds 0 to `n - 1` (R140). -/
def rounds (w : List Word) : Nat → Regs → Regs
  | 0, r => r
  | n + 1, r => roundStep w n (rounds w n r)

/-- "Initialize eight working registers `A..H` from the current state" (R146). -/
def Regs.ofV (v : Vector Word 8) : Regs :=
  { a := v[0], b := v[1], c := v[2], d := v[3], e := v[4], f := v[5], g := v[6], h := v[7] }

/-- `A..H` as eight words. -/
def Regs.toV (r : Regs) : Vector Word 8 := #v[r.a, r.b, r.c, r.d, r.e, r.f, r.g, r.h]

/-- `CF(V, B)` (R140), with the feed-forward of R151. -/
def compress (v : Vector Word 8) (b : Vector Byte 64) : Vector Word 8 :=
  let r := (rounds (expand b) 64 (Regs.ofV v)).toV
  Vector.ofFn fun i => v[i] ^^^ r[i]

/-- `n` compressions over the first `n` 64-byte chunks of `m`; the rest of `m` beside the result. -/
def compressChunks : Nat → Vector Word 8 → List Byte → Vector Word 8 × List Byte
  | 0, v, m => (v, m)
  | n + 1, v, m => compressChunks n (compress v (blockOf (m.take 64))) (m.drop 64)

end Sys2Proof.Machine
end

