-- ==== Sys2Proof/Machine/Sm3.lean ====
section
/-! DEFINITION. The meanings of the SM3 unit's commands (40_sm3_digest.md). -/

namespace Sys2Proof.Machine

/-! ## SM3.RESET -/

/-- SM3.RESET: `unit_reset(SM3)` (40_sm3_digest.md R111). -/
def execSm3Reset (s : State) : Host.Outcome State Fault Refusal := .next (s.withSm3 s.sm3.unitReset)

/-! ## SM3.ABSORB -/

/-- `CNT` advanced by `n` bytes, "explicit carry into the high half" (40_sm3_digest.md R114). -/
def Sm3.countBytes (u : Sm3) (n : Nat) : Sm3 :=
  let lo := u.cntLo.toNat + n
  { u with cntLo := BitVec.ofNat 32 (lo % 2 ^ 32), cntHi := BitVec.ofNat 32 ((u.cntHi.toNat + (lo >>> 32)) % 2 ^ 32) }

/-- Phase 1 (40_sm3_digest.md R112): complete a partial block. The bytes still to be taken are beside the unit. -/
def Sm3.absorbPhase1 (u : Sm3) (m : List Byte) : Sm3 × List Byte :=
  if 0 < u.fill ∧ 64 ≤ u.fill + m.length then
    let taken := 64 - u.fill
    let full := bufWrite u.buf u.fill (m.take taken)
    ({ u with buf := full, v := compress u.v full, fill := 0 }, m.drop taken)
  else (u, m)

/-- Phase 2: "Process all remaining full 64-byte chunks directly". -/
def Sm3.absorbPhase2 (u : Sm3) (m : List Byte) : Sm3 × List Byte :=
  if u.fill = 0 then
    let r := compressChunks (m.length / 64) u.v m
    ({ u with v := r.1 }, r.2)
  else (u, m)

/-- Phase 3: "Buffer any leftover bytes (< 64) for the next call". -/
def Sm3.absorbPhase3 (u : Sm3) (m : List Byte) : Sm3 :=
  { u with buf := bufWrite u.buf u.fill m, fill := u.fill + m.length }

/-- The source's `absorb(bytes)`: "A zero-length input is a no-op"; else the count and the three phases in order
(40_sm3_digest.md R112). -/
def Sm3.absorbBytes (u : Sm3) (m : List Byte) : Sm3 :=
  if m.length = 0 then u
  else
    let r1 := (u.countBytes m.length).absorbPhase1 m
    let r2 := r1.1.absorbPhase2 r1.2
    r2.1.absorbPhase3 r2.2

/-- The body of SM3.ABSORB at completion (40_sm3_digest.md R112), checks in the order of 60_exceptions.md R241. `NB > 64`
reaches it only from a term that is no command (log entry 18). -/
def Sm3.absorbRule (nb : Nat) (u : Sm3) : Except ErrCode Sm3 :=
  if 64 < nb then .error .illegalCmd
  else if u.final then .error .sequence
  else .ok (u.absorbBytes (windowBytes u.din nb))

/-- SM3.ABSORB `NB` (40_sm3_digest.md R112). -/
def execSm3Absorb (nb : Nat) (s : State) : Host.Outcome State Fault Refusal :=
  .next (s.withSm3 (s.sm3.finish (s.sm3.absorbRule nb)))

/-! ## SM3.FINALIZE -/

/-- The bit length `L = (8 * CNT) mod 2^64`, formed from the halves (40_sm3_digest.md R115). -/
def Sm3.bitLength (u : Sm3) : BitVec 64 :=
  ((u.cntHi <<< 3) ||| (u.cntLo >>> 29)) ++ (u.cntLo <<< 3)

/-- The bytes pending in the buffer, `BUF[0 .. FILL-1]` (10_state.md R23). -/
def Sm3.pendingBytes (u : Sm3) : List Byte := u.buf.toList.take u.fill

/-- The first half of FINALIZE's padding (40_sm3_digest.md R115): the `0x80` byte and, when the length has no room, one
compression of the zero-filled block. The chaining state and the bytes left for the last block. -/
def Sm3.padFirst (u : Sm3) : Vector Word 8 × List Byte :=
  let p := u.pendingBytes ++ [0x80]
  if 56 ≤ u.fill then (compress u.v (blockOf (p ++ List.replicate (63 - u.fill) 0)), [])
  else (u.v, p)

/-- The digest words: the last block, zero-filled to 56 bytes and ended by the length, compressed (40_sm3_digest.md R115). -/
def Sm3.finalDigest (u : Sm3) : Vector Word 8 :=
  let vp := u.padFirst
  compress vp.1 (blockOf (vp.2 ++ List.replicate (56 - vp.2.length) 0 ++ be64Bytes u.bitLength))

/-- The body of SM3.FINALIZE at completion (40_sm3_digest.md R115, R118, R119). `junk` is what `BUF` holds afterwards
(93 U23, "any value"; log entry 15). -/
def Sm3.finalizeRule (junk : Vector Byte 64) (u : Sm3) : Except ErrCode Sm3 :=
  if u.final then .error .sequence
  else .ok { u with v := u.finalDigest, buf := junk, fill := 0, final := true }

/-- SM3.FINALIZE's state after completion: a free value is taken for `BUF` when the command succeeds. -/
def State.finalizeOf (s : State) : State :=
  match s.sm3.finalizeRule (Config.bufAfterFinalize s.free) with
  | .error c => s.raise .sm3 c
  | .ok u => s.tick.withSm3 (s.sm3.finish (.ok u))

/-- SM3.FINALIZE (40_sm3_digest.md R115). -/
def execSm3Finalize (s : State) : Host.Outcome State Fault Refusal := .next s.finalizeOf

end Sys2Proof.Machine
end

