-- ==== Sys2Proof/Machine/Dispatch.lean ====
section
/-! DEFINITION. Which meaning each command has: the body run at completion (30_encoding.md R98), or at issue for the two
RESETs. -/

namespace Sys2Proof.Machine

def exec (i : Instr) (s : State) : Host.Outcome State Fault Refusal :=
  match i with
  | .sm3Reset => Sys2Proof.Machine.execSm3Reset s
  | .sm3Absorb nb => Sys2Proof.Machine.execSm3Absorb nb s
  | .sm3Finalize => Sys2Proof.Machine.execSm3Finalize s
  | .sm2Reset => Sys2Proof.Machine.execSm2Reset s
  | .sm2LoadPriv => Sys2Proof.Machine.execSm2LoadPriv s
  | .sm2LoadPub => Sys2Proof.Machine.execSm2LoadPub s
  | .sm2MsgClear => Sys2Proof.Machine.execSm2MsgClear s
  | .sm2MsgAbsorb nb => Sys2Proof.Machine.execSm2MsgAbsorb nb s
  | .sm2Sign => Sys2Proof.Machine.execSm2Sign s
  | .sm2Verify => Sys2Proof.Machine.execSm2Verify s
  | .sm2Muladd => Sys2Proof.Machine.execSm2Muladd s

end Sys2Proof.Machine
end

