-- ==== Sys2Proof/Machine/Registers.lean ====
section
/-! DEFINITION. The register map (10_state.md section 4, R40 to R59): names, offsets, access rights, and what each register
reads as and takes. -/

namespace Sys2Proof.Machine

/-- The registers of the map. A window's registers carry their word index. -/
inductive Reg where
  | sm3Cmd
  | sm3Status
  | sm3Fill
  | sm3CntLo
  | sm3CntHi
  | sm3Din (i : Fin 16)
  | sm3V (i : Fin 8)
  | sm2Cmd
  | sm2Status
  | sm2Nbits
  | sm2Op0 (k : Fin 16)
  | sm2Op1 (k : Fin 16)
  | sm2Msg (i : Fin 16)
  | sm2Pt0 (k : Fin 32)
  | sm2Pt1 (k : Fin 32)
  | sm2Rs0 (k : Fin 16)
  | sm2Rs1 (k : Fin 16)
  | sm2Rpt (k : Fin 32)
  | sm2Q (k : Fin 32)
deriving DecidableEq, Repr

/-- The offset of a register (10_state.md section 4). -/
def Reg.offset : Reg → Nat
  | .sm3Cmd => 0x000
  | .sm3Status => 0x004
  | .sm3Fill => 0x008
  | .sm3CntLo => 0x00C
  | .sm3CntHi => 0x010
  | .sm3Din i => 0x040 + 4 * i.val
  | .sm3V i => 0x080 + 4 * i.val
  | .sm2Cmd => 0x800
  | .sm2Status => 0x804
  | .sm2Nbits => 0x808
  | .sm2Op0 k => 0x840 + 4 * k.val
  | .sm2Op1 k => 0x880 + 4 * k.val
  | .sm2Msg i => 0x8C0 + 4 * i.val
  | .sm2Pt0 k => 0x900 + 4 * k.val
  | .sm2Pt1 k => 0x980 + 4 * k.val
  | .sm2Rs0 k => 0xA00 + 4 * k.val
  | .sm2Rs1 k => 0xA40 + 4 * k.val
  | .sm2Rpt k => 0xA80 + 4 * k.val
  | .sm2Q k => 0xB00 + 4 * k.val

/-- The register at an offset that is a multiple of 4; none at the reserved offsets (10_state.md section 4, R59). -/
def Reg.at? (a : Nat) : Option Reg :=
  if a = 0x000 then some .sm3Cmd
  else if a = 0x004 then some .sm3Status
  else if a = 0x008 then some .sm3Fill
  else if a = 0x00C then some .sm3CntLo
  else if a = 0x010 then some .sm3CntHi
  else if a < 0x040 then none
  else if a < 0x080 then some (.sm3Din (Fin.ofNat 16 ((a - 0x040) / 4)))
  else if a < 0x0A0 then some (.sm3V (Fin.ofNat 8 ((a - 0x080) / 4)))
  else if a < 0x800 then none
  else if a = 0x800 then some .sm2Cmd
  else if a = 0x804 then some .sm2Status
  else if a = 0x808 then some .sm2Nbits
  else if a < 0x840 then none
  else if a < 0x880 then some (.sm2Op0 (Fin.ofNat 16 ((a - 0x840) / 4)))
  else if a < 0x8C0 then some (.sm2Op1 (Fin.ofNat 16 ((a - 0x880) / 4)))
  else if a < 0x900 then some (.sm2Msg (Fin.ofNat 16 ((a - 0x8C0) / 4)))
  else if a < 0x980 then some (.sm2Pt0 (Fin.ofNat 32 ((a - 0x900) / 4)))
  else if a < 0xA00 then some (.sm2Pt1 (Fin.ofNat 32 ((a - 0x980) / 4)))
  else if a < 0xA40 then some (.sm2Rs0 (Fin.ofNat 16 ((a - 0xA00) / 4)))
  else if a < 0xA80 then some (.sm2Rs1 (Fin.ofNat 16 ((a - 0xA40) / 4)))
  else if a < 0xB00 then some (.sm2Rpt (Fin.ofNat 32 ((a - 0xA80) / 4)))
  else if a < 0xB80 then some (.sm2Q (Fin.ofNat 32 ((a - 0xB00) / 4)))
  else none

/-- The unit a register belongs to (20_memory.md R73). -/
def Reg.unit : Reg → UnitId
  | .sm3Cmd | .sm3Status | .sm3Fill | .sm3CntLo | .sm3CntHi | .sm3Din _ | .sm3V _ => .sm3
  | .sm2Cmd | .sm2Status | .sm2Nbits | .sm2Op0 _ | .sm2Op1 _ | .sm2Msg _ | .sm2Pt0 _ | .sm2Pt1 _
  | .sm2Rs0 _ | .sm2Rs1 _ | .sm2Rpt _ | .sm2Q _ => .sm2

/-- The access rights of the map: write-only, read-only, read-write. -/
inductive Access where
  | wo
  | ro
  | rw
deriving DecidableEq, Repr

/-- The "access" column of 10_state.md section 4. -/
def Reg.access : Reg → Access
  | .sm3Cmd | .sm2Cmd => .wo
  | .sm3Din _ | .sm2Op0 _ | .sm2Op1 _ | .sm2Msg _ | .sm2Pt0 _ | .sm2Pt1 _ => .rw
  | .sm3Status | .sm3Fill | .sm3CntLo | .sm3CntHi | .sm3V _ | .sm2Status | .sm2Nbits
  | .sm2Rs0 _ | .sm2Rs1 _ | .sm2Rpt _ | .sm2Q _ => .ro

/-- The registers whose read returns an unspecified value while their unit is busy (70_reset_and_hazards.md R265). -/
def Reg.isResult : Reg → Bool
  | .sm3Fill | .sm3CntLo | .sm3CntHi | .sm3V _ | .sm2Rs0 _ | .sm2Rs1 _ | .sm2Rpt _ | .sm2Q _ => true
  | .sm3Cmd | .sm3Status | .sm3Din _ | .sm2Cmd | .sm2Status | .sm2Nbits | .sm2Op0 _ | .sm2Op1 _ | .sm2Msg _
  | .sm2Pt0 _ | .sm2Pt1 _ => false

/-- The value shown in `SM2_Q`: "`PTENC(Q)` ... when `MODE != NONE`, and 0 in every word when `MODE = NONE`" (10_state.md R58). -/
def Sm2.qWindow (c : Curve) (u : Sm2) : BitVec 1024 :=
  match u.q with
  | some q => c.ptEnc q
  | none => 0

/-- The value a register's rule gives (10_state.md R40 to R58), over a capability `c`. -/
def State.regValueOf (c : Curve) (s : State) : Reg → Word
  | .sm3Cmd => 0
  | .sm3Status => s.sm3.status
  | .sm3Fill => fieldAt 0 (BitVec.ofNat 6 s.sm3.fill)
  | .sm3CntLo => s.sm3.cntLo
  | .sm3CntHi => s.sm3.cntHi
  | .sm3Din i => s.sm3.din[i]
  | .sm3V i => s.sm3.v[i]
  | .sm2Cmd => 0
  | .sm2Status => s.sm2.status
  | .sm2Nbits => fieldAt 0 (BitVec.ofNat 10 c.nbits)
  | .sm2Op0 k => wideWord 16 s.sm2.op0 k.val
  | .sm2Op1 k => wideWord 16 s.sm2.op1 k.val
  | .sm2Msg i => s.sm2.msg[i]
  | .sm2Pt0 k => wideWord 32 s.sm2.pt0 k.val
  | .sm2Pt1 k => wideWord 32 s.sm2.pt1 k.val
  | .sm2Rs0 k => wideWord 16 s.sm2.rs0 k.val
  | .sm2Rs1 k => wideWord 16 s.sm2.rs1 k.val
  | .sm2Rpt k => wideWord 32 s.sm2.rpt k.val
  | .sm2Q k => wideWord 32 (s.sm2.qWindow c) k.val

/-- The value a register's rule gives, with the machine's own capability. -/
def State.regValue (s : State) (r : Reg) : Word := s.regValueOf Config.curve r

/-- "the addressed word <- v" (20_memory.md R66) for the RW registers; the others are not written this way. -/
def State.setReg (s : State) (r : Reg) (v : Word) : State :=
  match r with
  | .sm3Din i => s.withSm3 { s.sm3 with din := s.sm3.din.set i v }
  | .sm2Op0 k => s.withSm2 { s.sm2 with op0 := wideSet 16 s.sm2.op0 k.val v }
  | .sm2Op1 k => s.withSm2 { s.sm2 with op1 := wideSet 16 s.sm2.op1 k.val v }
  | .sm2Msg i => s.withSm2 { s.sm2 with msg := s.sm2.msg.set i v }
  | .sm2Pt0 k => s.withSm2 { s.sm2 with pt0 := wideSet 32 s.sm2.pt0 k.val v }
  | .sm2Pt1 k => s.withSm2 { s.sm2 with pt1 := wideSet 32 s.sm2.pt1 k.val v }
  | .sm3Cmd | .sm3Status | .sm3Fill | .sm3CntLo | .sm3CntHi | .sm3V _ | .sm2Cmd | .sm2Status | .sm2Nbits
  | .sm2Rs0 _ | .sm2Rs1 _ | .sm2Rpt _ | .sm2Q _ => s

end Sys2Proof.Machine
end

