-- ==== Sys2Proof/Machine/Bus.lean ====
section
/-! DEFINITION. The host's bus accesses (20_memory.md R61, R65, R66), what a write to a CMD register does (30_encoding.md R98),
and the completion step of a unit (30_encoding.md R98). -/

namespace Sys2Proof.Machine

/-! ## Which register an access reaches -/

/-- The register an access of `width` bits at `offset` reaches, or the bus error it is answered with (20_memory.md R61;
10_state.md R59; 60_exceptions.md R239). The order in which the reasons are tried is the model's own, log entry 11. -/
def accessReg (width : Nat) (offset : BitVec 12) : Except Fault Reg :=
  if width ≠ 32 then .error .busWidth
  else if offset.toNat % 4 ≠ 0 then .error .busMisaligned
  else match Reg.at? offset.toNat with
    | none => .error .busReserved
    | some r => .ok r

/-! ## Reads -/

/-- The state after the host read the register `r`: the host was answered with the value the register's rule gives, or, for a
result register of a busy unit, with a free value (20_memory.md R65; 70_reset_and_hazards.md R265). The engine's own state does
not change: "No register has a side effect on read". -/
def State.readReg (s : State) (r : Reg) : State :=
  if r.isResult && s.busy r.unit then s.tick.see (Config.busyRead s.free)
  else s.see (s.regValue r)

/-- `MemRead(BASE + offset, width/8)` (20_memory.md R65). -/
def busRead (width : Nat) (offset : BitVec 12) (s : State) : Host.Outcome State Fault Refusal :=
  match accessReg width offset with
  | .error f => .fault f
  | .ok r => .next (s.readReg r)

/-! ## Writes -/

/-- The RESET command of a unit. -/
def resetCommand : UnitId → Instr
  | .sm3 => .sm3Reset
  | .sm2 => .sm2Reset

/-- "A host write of word `v` to the CMD register of unit `U`" (30_encoding.md R98): the RESET word acts at once, whatever BUSY
is; any other word is dropped while the unit is busy, and issued otherwise. -/
def cmdWrite (u : UnitId) (v : Word) (s : State) : Host.Outcome State Fault Refusal :=
  if v = resetWord then exec (resetCommand u) s
  else if s.busy u then .next (s.dropWrite u)
  else .next (s.issue u v)

/-- A write of `v` to a register (20_memory.md R66). -/
def State.writeReg (s : State) (r : Reg) (v : Word) : Host.Outcome State Fault Refusal :=
  match r.access with
  | .rw => if s.busy r.unit then .next (s.dropWrite r.unit) else .next (s.setReg r v)
  | .wo => cmdWrite r.unit v s
  | .ro => .fault .busReadOnly

/-- `MemWrite(BASE + offset, width/8, v)` (20_memory.md R66). -/
def busWrite (width : Nat) (offset : BitVec 12) (v : Word) (s : State) : Host.Outcome State Fault Refusal :=
  match accessReg width offset with
  | .error f => .fault f
  | .ok r => s.writeReg r v

/-! ## Completion -/

/-- `complete(U)` (30_encoding.md R98): "enabled only while U.BUSY == 1"; the word in flight is decoded, an illegal one completes
with `ILLEGAL_CMD` (R95), a legal one runs its rule. A turn of an idle unit does nothing. -/
def completeUnit (u : UnitId) (s : State) : Host.Outcome State Fault Refusal :=
  if s.busy u then
    match decode u (s.pend u) with
    | .ok i => exec i s
    | .error _ => .next (s.raise u .illegalCmd)
  else .next s

end Sys2Proof.Machine
end

