-- ==== Sys2Proof/Machine/Turn.lean ====
section
/-! DEFINITION. What one turn of each agent does (00_scope.md R15), and how a command word is put where the next step runs it. -/

namespace Sys2Proof.Machine

/-- The STATUS register of a unit (10_state.md R41, R48). -/
def statusReg : UnitId → Reg
  | .sm3 => .sm3Status
  | .sm2 => .sm2Status

/-- The host's turn: its next statement (30_encoding.md R100). A POLL stays in the program until the STATUS it has just read has
bit 0 equal to 0. A host with nothing left to do does nothing (70_reset_and_hazards.md R274). -/
def hostTurn (s : State) : Host.Outcome State Fault Refusal :=
  match s.program with
  | [] => .next s
  | .read width offset :: rest => busRead width offset (s.withProgram rest)
  | .write width offset v :: rest => busWrite width offset v (s.withProgram rest)
  | .poll u :: rest =>
    if (s.regValue (statusReg u)).getLsbD 0 then .next (s.readReg (statusReg u))
    else .next ((s.withProgram rest).readReg (statusReg u))

/-- One answer of the randomness source, "in `[0, 2^NBITS - 1]`" (42_sm2_signer.md R172), joins those not yet drawn. -/
def State.oneMoreAnswer (s : State) : State :=
  (s.withAnswers (s.answers ++ [Config.answer s.free % 2 ^ Config.curve.nbits])).tick

/-- The move of an agent. -/
def takeTurn (a : Agent) (s : State) : Host.Outcome State Fault Refusal :=
  match a with
  | .host => hostTurn s
  | .sm3 => completeUnit .sm3 s
  | .sm2 => completeUnit .sm2 s
  | .rng => .next s.oneMoreAnswer
  | .resetPin => .next s.hardReset

/-- The offset of a unit's CMD register (10_state.md R40, R47). -/
def cmdOffset : UnitId → BitVec 12
  | .sm3 => 0x000
  | .sm2 => 0x800

/-- The agent that runs a unit's commands. -/
def unitAgent : UnitId → Agent
  | .sm3 => .sm3
  | .sm2 => .sm2

/-- The state in which the next turn runs the command word `v` on the unit `u`: the RESET word as the host's next write, any
other word as the word in flight of a busy unit whose completion comes next. -/
def State.placeWord (s : State) (u : UnitId) (v : Word) : State :=
  if v = resetWord then
    (s.withProgram (.write 32 (cmdOffset u) v :: s.program)).withTurns (.host :: s.turns)
  else (s.issue u v).withTurns (unitAgent u :: s.turns)

end Sys2Proof.Machine
end

