-- ==== Sys2Proof/Machine/Step.lean ====
section
/-! DEFINITION. One step: the next agent makes its move. -/

namespace Sys2Proof.Machine

/-- One step. The next turn is the first of `turns`; where none is laid down it is a free value (93 U21, U22; log entry 2). -/
def step (s : State) : Host.Outcome State Fault Refusal :=
  match s.turns with
  | a :: rest => takeTurn a (s.withTurns rest)
  | [] => takeTurn (Config.turn s.free) s.tick

/-- The state with a table word placed where the next step runs it, on the unit the decoder takes it for (`tableUnit`, log
entry 16). It stands for a host that has written the word to that unit's CMD register (log entry 3). -/
def State.withFetchWord (s : State) (nbits w : Nat) : State :=
  let v : Word := BitVec.ofNat 32 (w % 2 ^ nbits)
  s.placeWord (tableUnit v) v

end Sys2Proof.Machine
end

