-- ==== Sys2Proof/Machine/HostProgram.lean ====
section
/-! DEFINITION. The syntax of host programs (30_encoding.md R99, R100): command mnemonics and pseudo-statements, each as the bus
accesses it stands for. -/

namespace Sys2Proof.Machine

/-- `W REG, v` (30_encoding.md R100). -/
def wReg (r : Reg) (v : Word) : Stmt := .write 32 (BitVec.ofNat 12 r.offset) v

/-- `R REG` (30_encoding.md R100). -/
def rReg (r : Reg) : Stmt := .read 32 (BitVec.ofNat 12 r.offset)

/-- A command mnemonic used as a statement: "`W U_CMD, word`" (30_encoding.md R99, R100). -/
def command (i : Instr) : Stmt := .write 32 (cmdOffset i.unit) (encode i)

/-- `LOADWIN WIN, X` for a window of `n` words whose word `k` is the register `win k` (30_encoding.md R100). -/
def loadWin {w : Nat} (n : Nat) (win : Fin n → Reg) (x : BitVec w) : List Stmt :=
  (List.finRange n).map fun k => wReg (win k) (wideWord n x k.val)

/-- The words a byte string of at most 64 bytes is written as, "missing bytes of the last word written 0" (30_encoding.md R100). -/
def packWords (m : List Byte) : List Word :=
  (List.range ((m.length + 3) / 4)).map fun i =>
    be32 (m.getD (4 * i) 0) (m.getD (4 * i + 1) 0) (m.getD (4 * i + 2) 0) (m.getD (4 * i + 3) 0)

/-- The writes of a byte string into the byte window `win` (30_encoding.md R100). -/
def loadBytes (win : Fin 16 → Reg) (m : List Byte) : List Stmt :=
  (packWords m).zipIdx.map fun p => wReg (win (Fin.ofNat 16 p.2)) p.1

/-- `sm3.absorb_bytes m`, `m` of at most 64 bytes (30_encoding.md R100). -/
def absorbBytesStmts (m : List Byte) : List Stmt :=
  loadBytes .sm3Din m ++ [command (.sm3Absorb m.length), .poll .sm3]

/-- `sm2.msg_bytes m`, `m` of at most 64 bytes (30_encoding.md R100). -/
def msgBytesStmts (m : List Byte) : List Stmt :=
  loadBytes .sm2Msg m ++ [command (.sm2MsgAbsorb m.length), .poll .sm2]

/-- A byte string cut into `n` pieces of 64 bytes and the rest. -/
def pieces64 : Nat → List Byte → List (List Byte)
  | 0, m => if m = [] then [] else [m]
  | n + 1, m => m.take 64 :: pieces64 n (m.drop 64)

/-- `sm3.hash m` (30_encoding.md R100): reset, absorb each 64-byte piece in order (the last one shorter), finalize, read the
digest. -/
def hashStmts (m : List Byte) : List Stmt :=
  [command .sm3Reset] ++ (pieces64 (m.length / 64) m).flatMap absorbBytesStmts
    ++ [command .sm3Finalize, .poll .sm3] ++ (List.finRange 8).map fun i => rReg (.sm3V i)

/-! ## The end of a host program (70_reset_and_hazards.md R274) -/

/-- The unit whose half of the register space an offset lies in (20_memory.md R73). -/
def offsetUnit (offset : BitVec 12) : UnitId := if offset.toNat < 0x800 then .sm3 else .sm2

/-- The unit a statement accesses. -/
def Stmt.unit : Stmt → UnitId
  | .read _ offset => offsetUnit offset
  | .write _ offset _ => offsetUnit offset
  | .poll u => u

/-- Whether a program uses a unit: some statement of it accesses that unit. DEDUCED, log entry 24. -/
def usesUnit (program : List Stmt) (u : UnitId) : Bool := program.any fun st => decide (st.unit = u)

/-- `program` has ended in the state `s`: the host "has performed its last access and every unit it used has `BUSY = 0`"
(R274). A unit it did not use may be busy, and nothing is said of what any register holds. -/
def State.Ended (s : State) (program : List Stmt) : Prop :=
  s.program = [] ∧ ∀ u, usesUnit program u = true → s.busy u = false

end Sys2Proof.Machine
end

