-- ==== Sys2Proof/Safety.lean ====
section
/-! DEFINITION. What a sound state and a safe run are, in the terms the statements use. -/

namespace Sys2Proof.Machine

/-! ## The invariant -/

/-- What holds of the SM3 unit between steps: `FILL <= 63` (10_state.md R24); `FILL = CNT mod 64` until FINALIZE, 0 after it
(40_sm3_digest.md R110, R118); the word in flight is never the RESET word (30_encoding.md R98); ERR is a code the unit's
commands raise (60_exceptions.md R231). -/
structure Sm3.Inv (u : Sm3) : Prop where
  fill_le : u.fill ≤ 63
  fill_cnt : u.final = false → u.fill = u.cnt.toNat % 64
  fill_final : u.final = true → u.fill = 0
  pend_ne : u.busy = true → u.pend ≠ resetWord
  err_raised : u.err = .ok ∨ u.err = .illegalCmd ∨ u.err = .sequence

/-- What a key satisfies (10_state.md R29, R30): `0 < D < N` and `Q = D·G`, or a point. -/
def Key.Inv (c : Curve) : Key → Prop
  | .empty => True
  | .signing d q => 0 < d ∧ d < c.N ∧ q = c.ecMul d c.G
  | .verifying q => c.IsPoint q

/-- What holds of the SM2 unit between steps: the key's range (10_state.md R29), `EACC` in `[0, N-1]` (R31), `RS0` and `RS1`
below `N` (42_sm2_signer.md R171, R184), `RPT` 0 or the encoding of a point (10_state.md R37), and as for SM3 the word in
flight. -/
structure Sm2.Inv (c : Curve) (u : Sm2) : Prop where
  key_inv : u.key.Inv c
  eacc_lt : u.eacc < c.N
  rs0_lt : u.rs0.toNat < c.N
  rs1_lt : u.rs1.toNat < c.N
  rpt_point : u.rpt = 0 ∨ ∃ P, c.IsPoint P ∧ u.rpt = c.ptEnc P
  pend_ne : u.busy = true → u.pend ≠ resetWord

/-- The invariant of the machine; answers of the randomness source are in range (42_sm2_signer.md R172). -/
structure State.Inv (s : State) : Prop where
  sm3 : s.sm3.Inv
  sm2 : s.sm2.Inv Config.curve
  answers_lt : ∀ k ∈ s.answers, k < 2 ^ Config.curve.nbits

/-! ## Host programs that make no bus error -/

/-- A statement that is answered with no bus error (60_exceptions.md R239): 32 bits wide, at the offset of a register, and for
a write not a read-only one. -/
def Stmt.Legal : Stmt → Prop
  | .read width offset => width = 32 ∧ ∃ r : Reg, r.offset = offset.toNat
  | .write width offset _ => width = 32 ∧ ∃ r : Reg, r.offset = offset.toNat ∧ r.access ≠ .ro
  | .poll _ => True

/-- `n` steps from `s` meet no fault and no refusal. -/
def SafeFor : Nat → State → Prop
  | 0, _ => True
  | n + 1, s => ∃ t, step s = .next t ∧ SafeFor n t

/-! ## Reference forms, for the SM3 unit as a whole -/

/-- The padded message of 40_sm3_digest.md R115 with the number of zero bytes given there: "`z = (55 - FILL) mod 64`". -/
def paddedMessage (m : List Byte) : List Byte :=
  m ++ [0x80] ++ List.replicate ((119 - m.length % 64) % 64) 0 ++ be64Bytes (BitVec.ofNat 64 (8 * m.length))

/-- "applying `CF` from `IV` over" a byte string, one 64-byte block at a time (40_sm3_digest.md R110). -/
def foldBlocks (m : List Byte) : Vector Word 8 := (compressChunks (m.length / 64) Config.iv m).1

/-- One message hashed by commands alone: for each piece, the window `DIN` as the host has filled it and `SM3.ABSORB NB`, then
`SM3.FINALIZE` (70_reset_and_hazards.md R263). -/
def hashRun (s : State) : List (Vector Word 16 × Nat) → Host.Outcome State Fault Refusal
  | [] => exec .sm3Finalize s
  | (win, nb) :: rest =>
    match exec (.sm3Absorb nb) (s.withSm3 { s.sm3 with din := win }) with
    | .next t => hashRun t rest
    | .fault f => .fault f
    | .refused r => .refused r

/-- The message those pieces make up. -/
def messageOf (pieces : List (Vector Word 16 × Nat)) : List Byte :=
  pieces.flatMap fun p => windowBytes p.1 p.2

/-! ## What an acceptable nonce is, without the inverse -/

/-- The nonce `k` passes the three tests of 42_sm2_signer.md R181 and R182: it is in `[1, N-1]`, `r` is not 0, and `s` is not 0
("that is `k = r * d mod N`"). -/
def Acceptable (c : Curve) (d e k : Nat) : Prop :=
  0 < k ∧ k < c.N ∧ (e + c.ecX (c.ecMul k c.G)) % c.N ≠ 0 ∧
    k % c.N ≠ (e + c.ecX (c.ecMul k c.G)) % c.N * d % c.N

/-- `(r, t)` is the signature R182 gives for `k`: `r = (e + ec_x(k*G)) mod N`, and `t` the residue with
`t * (d + 1) = k - r * d (mod N)`. -/
def IsSignature (c : Curve) (d e k r t : Nat) : Prop :=
  r = (e + c.ecX (c.ecMul k c.G)) % c.N ∧ t < c.N ∧ (t * (d + 1) + r * d) % c.N = k % c.N

end Sys2Proof.Machine
end

