-- ==== Sys2Proof/Certificates/Slice0/Obligations.lean ====
section
/-! DEFINITION. The statements about the engine, for the provers. Each docstring names the rule it formalises. -/

open Sys2Proof Sys2Proof.Machine

/-! ## Command words and the register map -/

/-- The words of 95_test_vectors.md section 5 and of 30_encoding.md R99, read by the decoder. -/
def Obligations.DecodedCommandWords : Prop :=
  decode .sm3 0x00000001 = .ok .sm3Reset ∧ decode .sm3 0x00000002 = .ok (.sm3Absorb 0) ∧
  decode .sm3 0x00004002 = .ok (.sm3Absorb 64) ∧ decode .sm3 0x00000003 = .ok .sm3Finalize ∧
  decode .sm2 0x00000001 = .ok .sm2Reset ∧ decode .sm2 0x00000010 = .ok .sm2LoadPriv ∧
  decode .sm2 0x00000011 = .ok .sm2LoadPub ∧ decode .sm2 0x00000020 = .ok .sm2MsgClear ∧
  decode .sm2 0x00004021 = .ok (.sm2MsgAbsorb 64) ∧ decode .sm2 0x00000030 = .ok .sm2Sign ∧
  decode .sm2 0x00000031 = .ok .sm2Verify ∧ decode .sm2 0x00000040 = .ok .sm2Muladd ∧
  decode .sm3 0x00004102 = .error .countTooLarge ∧ decode .sm3 0x00000010 = .error .unassignedOpcode ∧
  decode .sm3 0x80000002 = .error .reservedBits ∧ decode .sm2 0x00000130 = .error .countNotTaken ∧
  decode .sm2 0x00000101 = .error .countNotTaken

/-- 30_encoding.md R95 with R92: the decoder accepts exactly the legal words, they are exactly the listed ones, and an illegal
word in flight completes with `ILLEGAL_CMD` and changes no other state. -/
def Obligations.DecoderAcceptsExactlyLegalWords : Prop :=
  (∀ u v, (∃ i, decode u v = .ok i) ↔ legal u v = true) ∧
  (∀ u v, fieldRsv v ≠ 0 → legal u v = false) ∧
  (∀ v : Word, legal .sm3 v = true ↔
    v = 0x00000001 ∨ (∃ nb ≤ 64, v = 0x00000002 + BitVec.ofNat 32 (nb * 0x100)) ∨ v = 0x00000003) ∧
  (∀ v : Word, legal .sm2 v = true ↔
    v = 0x00000001 ∨ v = 0x00000010 ∨ v = 0x00000011 ∨ v = 0x00000020 ∨
    (∃ nb ≤ 64, v = 0x00000021 + BitVec.ofNat 32 (nb * 0x100)) ∨ v = 0x00000030 ∨ v = 0x00000031 ∨ v = 0x00000040) ∧
  (∀ s : State, s.sm3.busy = true → legal .sm3 s.sm3.pend = false →
    takeTurn .sm3 s = .next { s with sm3 := { s.sm3 with err := .illegalCmd, busy := false } }) ∧
  (∀ s : State, s.sm2.busy = true → legal .sm2 s.sm2.pend = false →
    takeTurn .sm2 s = .next { s with sm2 := { s.sm2 with err := .illegalCmd, busy := false } })

/-- Every well-formed command's word decodes, on its unit, to that command with its count. -/
def Obligations.DecodeOfEncodeIsSame : Prop :=
  ∀ i : Instr, i.wf = true → decode i.unit (encode i) = .ok i

/-- A word that decodes is the word of the command it decodes to: one word, one meaning. -/
def Obligations.EncodeOfDecodeIsSame : Prop :=
  ∀ u v i, decode u v = .ok i → i.unit = u ∧ i.wf = true ∧ encode i = v

/-- 10_state.md R59 with the map of section 4: the offset of each register, word by word; that each is found at its own offset;
that every other offset that is a multiple of 4 lies in the four reserved ranges, and an access there is a bus error. -/
def Obligations.ReservedOffsetsAreBusErrors : Prop :=
  (Reg.sm3Cmd.offset = 0x000 ∧ Reg.sm3Status.offset = 0x004 ∧ Reg.sm3Fill.offset = 0x008 ∧
    Reg.sm3CntLo.offset = 0x00C ∧ Reg.sm3CntHi.offset = 0x010 ∧
    (∀ i : Fin 16, (Reg.sm3Din i).offset = 0x040 + 4 * i.val) ∧ (∀ i : Fin 8, (Reg.sm3V i).offset = 0x080 + 4 * i.val) ∧
    Reg.sm2Cmd.offset = 0x800 ∧ Reg.sm2Status.offset = 0x804 ∧ Reg.sm2Nbits.offset = 0x808 ∧
    (∀ k : Fin 16, (Reg.sm2Op0 k).offset = 0x840 + 4 * k.val ∧ (Reg.sm2Op1 k).offset = 0x880 + 4 * k.val ∧
      (Reg.sm2Msg k).offset = 0x8C0 + 4 * k.val ∧ (Reg.sm2Rs0 k).offset = 0xA00 + 4 * k.val ∧
      (Reg.sm2Rs1 k).offset = 0xA40 + 4 * k.val) ∧
    (∀ k : Fin 32, (Reg.sm2Pt0 k).offset = 0x900 + 4 * k.val ∧ (Reg.sm2Pt1 k).offset = 0x980 + 4 * k.val ∧
      (Reg.sm2Rpt k).offset = 0xA80 + 4 * k.val ∧ (Reg.sm2Q k).offset = 0xB00 + 4 * k.val)) ∧
  (∀ r : Reg, r.offset % 4 = 0 ∧ r.offset < 4096 ∧ Reg.at? r.offset = some r) ∧
  (∀ a : BitVec 12, a.toNat % 4 = 0 →
    ((0x014 ≤ a.toNat ∧ a.toNat ≤ 0x03C) ∨ (0x0A0 ≤ a.toNat ∧ a.toNat ≤ 0x7FC) ∨
      (0x80C ≤ a.toNat ∧ a.toNat ≤ 0x83C) ∨ 0xB80 ≤ a.toNat ↔ ∀ r : Reg, r.offset ≠ a.toNat) ∧
    ((∀ r : Reg, r.offset ≠ a.toNat) →
      ∀ v s, busRead 32 a s = .fault .busReserved ∧ busWrite 32 a v s = .fault .busReserved))

/-- 60_exceptions.md R239: the accesses answered with a bus error are exactly those of another width than 32 bits, at an
offset that is not a multiple of 4, at a reserved offset, and the writes to a read-only register. -/
def Obligations.BusErrorsAreExactlyThese : Prop :=
  ∀ (width : Nat) (a : BitVec 12) (v : Word) (s : State),
    ((∃ f, busRead width a s = .fault f) ↔
      width ≠ 32 ∨ a.toNat % 4 ≠ 0 ∨ ∀ r : Reg, r.offset ≠ a.toNat) ∧
    ((∃ f, busWrite width a v s = .fault f) ↔
      width ≠ 32 ∨ a.toNat % 4 ≠ 0 ∨ (∀ r : Reg, r.offset ≠ a.toNat) ∨
        ∃ r : Reg, r.offset = a.toNat ∧ r.access = .ro)

/-! ## Reads and writes of registers -/

/-- 20_memory.md R65 and 70_reset_and_hazards.md R265: a read of a register is answered and leaves the engine as it was; the
answer is the value of the register's rule, unless it is a result register of a busy unit. -/
def Obligations.ReadsLeaveTheEngine : Prop :=
  ∀ (r : Reg) (s : State), ∃ t, busRead 32 (BitVec.ofNat 12 r.offset) s = .next t ∧
    t.sm3 = s.sm3 ∧ t.sm2 = s.sm2 ∧ t.program = s.program ∧ t.answers = s.answers ∧ t.turns = s.turns ∧
    (∃ x, t.seen = x :: s.seen) ∧
    (r.isResult = false ∨ s.busy r.unit = false → t = { s with seen := s.regValue r :: s.seen })

/-- 10_state.md R41 and R48: the fields of the two STATUS registers, their zero bits, that the host cannot write them, and their
reset value; with the numbers of the error codes (60_exceptions.md R231) and of the modes (10_state.md R28). -/
def Obligations.StatusRegisterFields : Prop :=
  (∀ s : State,
    (s.regValue .sm3Status).getLsbD 0 = s.sm3.busy ∧ (s.regValue .sm3Status).getLsbD 1 = s.sm3.final ∧
    (s.regValue .sm3Status).getLsbD 2 = s.sm3.ovr ∧ (s.regValue .sm3Status).extractLsb' 8 4 = s.sm3.err.code ∧
    (s.regValue .sm3Status).extractLsb' 3 5 = 0 ∧ (s.regValue .sm3Status).extractLsb' 12 20 = 0 ∧
    (s.regValue .sm2Status).getLsbD 0 = s.sm2.busy ∧ (s.regValue .sm2Status).getLsbD 1 = false ∧
    (s.regValue .sm2Status).getLsbD 2 = s.sm2.ovr ∧ (s.regValue .sm2Status).getLsbD 3 = s.sm2.valid ∧
    (s.regValue .sm2Status).extractLsb' 4 2 = s.sm2.mode.code ∧ (s.regValue .sm2Status).extractLsb' 6 2 = 0 ∧
    (s.regValue .sm2Status).extractLsb' 8 4 = s.sm2.err.code ∧ (s.regValue .sm2Status).extractLsb' 12 20 = 0) ∧
  (∀ (s : State) (v : Word), busWrite 32 0x004 v s = .fault .busReadOnly ∧ busWrite 32 0x804 v s = .fault .busReadOnly) ∧
  State.reset.regValue .sm3Status = 0 ∧ State.reset.regValue .sm2Status = 0 ∧
  (ErrCode.ok.code = 0 ∧ ErrCode.illegalCmd.code = 1 ∧ ErrCode.sequence.code = 2 ∧ ErrCode.modeErr.code = 3 ∧
    ErrCode.keyRange.code = 4 ∧ ErrCode.noInverse.code = 5 ∧ ErrCode.badPoint.code = 6) ∧
  (Mode.none.code = 0 ∧ Mode.sign.code = 1 ∧ Mode.verify.code = 2)

/-- 10_state.md R42 to R46, R49, R58: what the registers that show a number, a word or a point read as. -/
def Obligations.RegistersShowTheirState : Prop :=
  ∀ s : State,
    (s.sm3.fill ≤ 63 → (s.regValue .sm3Fill).toNat = s.sm3.fill) ∧ (s.regValue .sm3Fill).extractLsb' 6 26 = 0 ∧
    s.regValue .sm3CntLo = s.sm3.cnt.extractLsb' 0 32 ∧ s.regValue .sm3CntHi = s.sm3.cnt.extractLsb' 32 32 ∧
    (∀ i : Fin 16, s.regValue (.sm3Din i) = s.sm3.din[i]) ∧ (∀ i : Fin 8, s.regValue (.sm3V i) = s.sm3.v[i]) ∧
    (∀ i : Fin 16, s.regValue (.sm2Msg i) = s.sm2.msg[i]) ∧
    (s.regValue .sm2Nbits).toNat = bitlen Config.curve.N ∧
    (∀ q (k : Fin 32), s.sm2.q = some q → s.regValue (.sm2Q k) = (Config.curve.ptEnc q).extractLsb' (992 - 32 * k.val) 32) ∧
    (∀ k : Fin 32, s.sm2.mode = .none → s.regValue (.sm2Q k) = 0) ∧
    s.regValue .sm3Cmd = 0 ∧ s.regValue .sm2Cmd = 0

/-- 20_memory.md R63: word `k` of a wide window stands at `b + 4k` and is `X[32n-1-32k : 32n-32-32k]`, and each word is written
alone. -/
def Obligations.WideWindowsMostSignificantWordFirst : Prop :=
  (∀ k : Fin 16,
    (Reg.sm2Op0 k).offset = 0x840 + 4 * k.val ∧ (Reg.sm2Op1 k).offset = 0x880 + 4 * k.val ∧
    (Reg.sm2Rs0 k).offset = 0xA00 + 4 * k.val ∧ (Reg.sm2Rs1 k).offset = 0xA40 + 4 * k.val) ∧
  (∀ k : Fin 32,
    (Reg.sm2Pt0 k).offset = 0x900 + 4 * k.val ∧ (Reg.sm2Pt1 k).offset = 0x980 + 4 * k.val ∧
    (Reg.sm2Rpt k).offset = 0xA80 + 4 * k.val) ∧
  (∀ (s : State) (k : Fin 16),
    s.regValue (.sm2Op0 k) = s.sm2.op0.extractLsb' (480 - 32 * k.val) 32 ∧
    s.regValue (.sm2Op1 k) = s.sm2.op1.extractLsb' (480 - 32 * k.val) 32 ∧
    s.regValue (.sm2Rs0 k) = s.sm2.rs0.extractLsb' (480 - 32 * k.val) 32 ∧
    s.regValue (.sm2Rs1 k) = s.sm2.rs1.extractLsb' (480 - 32 * k.val) 32) ∧
  (∀ (s : State) (k : Fin 32),
    s.regValue (.sm2Pt0 k) = s.sm2.pt0.extractLsb' (992 - 32 * k.val) 32 ∧
    s.regValue (.sm2Pt1 k) = s.sm2.pt1.extractLsb' (992 - 32 * k.val) 32 ∧
    s.regValue (.sm2Rpt k) = s.sm2.rpt.extractLsb' (992 - 32 * k.val) 32) ∧
  (∀ (s : State) (k j : Fin 16) (v : Word),
    (s.setReg (.sm2Op0 k) v).sm2.op0.extractLsb' (480 - 32 * j.val) 32 =
      (if j = k then v else s.sm2.op0.extractLsb' (480 - 32 * j.val) 32) ∧
    (s.setReg (.sm2Op1 k) v).sm2.op1.extractLsb' (480 - 32 * j.val) 32 =
      (if j = k then v else s.sm2.op1.extractLsb' (480 - 32 * j.val) 32)) ∧
  (∀ (s : State) (k j : Fin 32) (v : Word),
    (s.setReg (.sm2Pt0 k) v).sm2.pt0.extractLsb' (992 - 32 * j.val) 32 =
      (if j = k then v else s.sm2.pt0.extractLsb' (992 - 32 * j.val) 32) ∧
    (s.setReg (.sm2Pt1 k) v).sm2.pt1.extractLsb' (992 - 32 * j.val) 32 =
      (if j = k then v else s.sm2.pt1.extractLsb' (992 - 32 * j.val) 32))

/-- 20_memory.md R66 for an idle unit: the word written to an RW register reads back, every other register reads as before, and
nothing but the host windows can have changed. -/
def Obligations.RegisterWriteReadsBack : Prop :=
  ∀ (s : State) (r : Reg) (v : Word), r.access = .rw → s.busy r.unit = false →
    ∃ t, busWrite 32 (BitVec.ofNat 12 r.offset) v s = .next t ∧ t.regValue r = v ∧
      (∀ r', r' ≠ r → t.regValue r' = s.regValue r') ∧
      t = { s with
        sm3 := { s.sm3 with din := t.sm3.din }
        sm2 := { s.sm2 with op0 := t.sm2.op0, op1 := t.sm2.op1, msg := t.sm2.msg, pt0 := t.sm2.pt0, pt1 := t.sm2.pt1 } }

/-- 60_exceptions.md R240: a write to a busy unit's RW or CMD register, other than the RESET word, only sets that unit's OVR. -/
def Obligations.BusyUnitDropsWrites : Prop :=
  ∀ (s : State) (r : Reg) (v : Word), s.busy r.unit = true → r.access = .rw ∨ (r.access = .wo ∧ v ≠ 0x00000001) →
    busWrite 32 (BitVec.ofNat 12 r.offset) v s = .next (match r.unit with
      | .sm3 => { s with sm3 := { s.sm3 with ovr := true } }
      | .sm2 => { s with sm2 := { s.sm2 with ovr := true } })

/-- 70_reset_and_hazards.md R264, 10_state.md R26: "`OVR` stays 1 until that unit is reset". -/
def Obligations.OverrunStaysUntilReset : Prop :=
  ∀ s t : State, step s = .next t →
    (s.sm3.ovr = true → t.sm3.ovr = true ∨ t.sm3 = s.sm3.unitReset ∨ t.sm3 = .reset) ∧
    (s.sm2.ovr = true → t.sm2.ovr = true ∨ t.sm2 = s.sm2.unitReset ∨ t.sm2 = .reset)

/-- 30_encoding.md R98: on an idle unit a command word other than RESET is held in PEND and BUSY becomes 1; nothing else
changes. -/
def Obligations.CommandIsIssued : Prop :=
  (∀ (s : State) (v : Word), v ≠ 0x00000001 → s.sm3.busy = false →
    busWrite 32 0x000 v s = .next { s with sm3 := { s.sm3 with pend := v, busy := true } }) ∧
  (∀ (s : State) (v : Word), v ≠ 0x00000001 → s.sm2.busy = false →
    busWrite 32 0x800 v s = .next { s with sm2 := { s.sm2 with pend := v, busy := true } })

/-- A step runs the decoded command: at a turn of a busy unit whose word in flight decodes to `i`, and at a host's turn whose
next statement writes the RESET word (30_encoding.md R98). -/
def Obligations.StepRunsDecodedCommand : Prop :=
  (∀ (s : State) (u : UnitId) (i : Instr) (rest : List Agent), s.turns = unitAgent u :: rest → s.busy u = true →
    decode u (s.pend u) = .ok i → step s = exec i { s with turns := rest }) ∧
  (∀ (s : State) (u : UnitId) (rest : List Agent) (p : List Stmt), s.turns = .host :: rest →
    s.program = .write 32 (cmdOffset u) 0x00000001 :: p →
    step s = exec (resetCommand u) { s with turns := rest, program := p })

/-- A command placed for the next step is run by it: a RESET on the state itself, any other command on the state in which its
unit holds the command's word and is busy (the model's way to run a command, log entry 3). -/
def Obligations.PlacedCommandRuns : Prop :=
  ∀ (s : State) (i : Instr), i.wf = true →
    step (s.placeWord i.unit (encode i)) =
      exec i (if i = .sm3Reset ∨ i = .sm2Reset then s else s.issue i.unit (encode i))

/-! ## Resets -/

/-- 70_reset_and_hazards.md R261: `unit_reset(SM3)` by the command, which keeps `DIN`, and by the hardware reset, which clears it
(R260); a completion that was pending is cancelled: the unit's next turn does nothing. Nothing is said of PEND. -/
def Obligations.Sm3UnitReset : Prop :=
  (∀ s : State, ∃ p t, exec .sm3Reset s = .next t ∧ t = { s with sm3 := {
    v := #v[0x7380166F, 0x4914B2B9, 0x172442D7, 0xDA8A0600, 0xA96F30BC, 0x163138AA, 0xE38DEE4D, 0xB0FB0E4E]
    cntHi := 0, cntLo := 0, buf := Vector.replicate 64 0, fill := 0, final := false, busy := false, err := .ok
    ovr := false, pend := p, din := s.sm3.din } } ∧ takeTurn .sm3 t = .next t) ∧
  (∀ s : State, ∃ p t, takeTurn .resetPin s = .next t ∧ t.sm3 = {
    v := #v[0x7380166F, 0x4914B2B9, 0x172442D7, 0xDA8A0600, 0xA96F30BC, 0x163138AA, 0xE38DEE4D, 0xB0FB0E4E]
    cntHi := 0, cntLo := 0, buf := Vector.replicate 64 0, fill := 0, final := false, busy := false, err := .ok
    ovr := false, pend := p, din := Vector.replicate 16 0 } ∧ takeTurn .sm3 t = .next t)

/-- 70_reset_and_hazards.md R262: `unit_reset(SM2)` by the command, which keeps the host windows, and by the hardware reset, which
clears them (R260); a completion that was pending is cancelled. Nothing is said of PEND. -/
def Obligations.Sm2UnitReset : Prop :=
  (∀ s : State, ∃ p t, exec .sm2Reset s = .next t ∧ t = { s with sm2 := { s.sm2 with
    key := .empty, eacc := 0, valid := false, rs0 := 0, rs1 := 0, rpt := 0, err := .ok, ovr := false, busy := false
    pend := p } } ∧ takeTurn .sm2 t = .next t) ∧
  (∀ s : State, ∃ p t, takeTurn .resetPin s = .next t ∧ t.sm2 = {
    key := .empty, eacc := 0, valid := false, rs0 := 0, rs1 := 0, rpt := 0, err := .ok, ovr := false, busy := false
    pend := p, op0 := 0, op1 := 0, msg := Vector.replicate 16 0, pt0 := 0, pt1 := 0 } ∧ takeTurn .sm2 t = .next t)

/-- 70_reset_and_hazards.md R260: the hardware reset resets both units and clears the host windows, and afterwards every register
reads its reset value; so it does in `State.reset`. Nothing is said of PEND. -/
def Obligations.RegistersAfterHardwareReset : Prop :=
  (∀ s : State, ∃ p p', takeTurn .resetPin s = .next { s with
    sm3 := { s.sm3.unitReset with din := Vector.replicate 16 0, pend := p }
    sm2 := { s.sm2.unitReset with op0 := 0, op1 := 0, msg := Vector.replicate 16 0, pt0 := 0, pt1 := 0, pend := p' } }) ∧
  (∀ r : Reg,
    (∀ s : State, ∃ t, takeTurn .resetPin s = .next t ∧ t.regValue r = State.reset.regValue r) ∧
    State.reset.regValue r = (match r with
      | .sm3V i => (#v[0x7380166F, 0x4914B2B9, 0x172442D7, 0xDA8A0600, 0xA96F30BC, 0x163138AA, 0xE38DEE4D, 0xB0FB0E4E]
          : Vector Word 8)[i]
      | .sm2Nbits => BitVec.ofNat 32 (bitlen Config.curve.N)
      | _ => 0))

/-- 70_reset_and_hazards.md R270: the RESET word, written at any time, resets its unit and cancels the command in flight: the unit's
next turn does nothing. -/
def Obligations.ResetWordAborts : Prop :=
  (∀ s : State, ∃ t, busWrite 32 0x000 0x00000001 s = .next t ∧ t = { s with sm3 := s.sm3.unitReset } ∧
    t.sm3.busy = false ∧ takeTurn .sm3 t = .next t) ∧
  (∀ s : State, ∃ t, busWrite 32 0x800 0x00000001 s = .next t ∧ t = { s with sm2 := s.sm2.unitReset } ∧
    t.sm2.busy = false ∧ takeTurn .sm2 t = .next t)

/-! ## The SM3 unit -/

/-- 20_memory.md R64: the numbering of a byte window, and that a full window parses into its own words. -/
def Obligations.ByteWindowsAreBigEndian : Prop :=
  ∀ win : Vector Word 16,
    (∀ (i : Fin 16) (b : Fin 4), windowByte win (4 * i.val + b.val) = win[i].extractLsb' (24 - 8 * b.val) 8) ∧
    (∀ nb ≤ 64, windowBytes win nb = (windowBytes win 64).take nb) ∧
    parseBlock (blockOf (windowBytes win 64)) = win.toList

/-- 40_sm3_digest.md R112, no error: the bytes join the pending ones; 64 or more of them are compressed as one block; the rest
stays pending; the counter advances; nothing else changes. -/
def Obligations.AbsorbBuffersOrCompresses : Prop :=
  ∀ (s : State) (nb : Nat), nb ≤ 64 → s.sm3.final = false → s.sm3.fill ≤ 63 →
    ∃ t, exec (.sm3Absorb nb) s = .next t ∧
      t = { s with sm3 := { s.sm3 with
        v := t.sm3.v, cntHi := t.sm3.cntHi, cntLo := t.sm3.cntLo, buf := t.sm3.buf, fill := t.sm3.fill
        err := .ok, busy := false } } ∧
      t.sm3.cnt = s.sm3.cnt + BitVec.ofNat 64 nb ∧
      (s.sm3.fill + nb < 64 →
        t.sm3.fill = s.sm3.fill + nb ∧ t.sm3.v = s.sm3.v ∧
        t.sm3.pendingBytes = s.sm3.pendingBytes ++ windowBytes s.sm3.din nb) ∧
      (64 ≤ s.sm3.fill + nb →
        t.sm3.fill = s.sm3.fill + nb - 64 ∧
        t.sm3.v = compress s.sm3.v (blockOf ((s.sm3.pendingBytes ++ windowBytes s.sm3.din nb).take 64)) ∧
        t.sm3.pendingBytes = (s.sm3.pendingBytes ++ windowBytes s.sm3.din nb).drop 64)

/-- 40_sm3_digest.md R114: ABSORB adds `NB` to the counter with carry into the high half, modulo 2^64. -/
def Obligations.ByteCounterCarries : Prop :=
  ∀ (s : State) (nb : Nat), nb ≤ 64 → s.sm3.final = false →
    ∃ t, exec (.sm3Absorb nb) s = .next t ∧
      t.sm3.cntLo.toNat = (s.sm3.cntLo.toNat + nb) % 2 ^ 32 ∧
      t.sm3.cntHi.toNat = (s.sm3.cntHi.toNat + (s.sm3.cntLo.toNat + nb) / 2 ^ 32) % 2 ^ 32 ∧
      t.sm3.cnt.toNat = (s.sm3.cnt.toNat + nb) % 2 ^ 64 ∧
      (s.sm3.cntHi = 0x00000000 → s.sm3.cntLo = 0xFFFFFFFE → nb = 3 →
        t.sm3.cntHi = 0x00000001 ∧ t.sm3.cntLo = 0x00000001)

/-- 40_sm3_digest.md R115, R116, R118, no error: one compression for `FILL` 0 to 55, two for 56 to 63; the length field is
`(8 * CNT) mod 2^64`; FINAL, FILL and CNT afterwards; nothing else changes (BUF and the count of free values apart, which hold
the model's free value, log entry 15). -/
def Obligations.FinalizePadsAndCloses : Prop :=
  ∀ s : State, s.sm3.final = false → s.sm3.fill ≤ 63 →
    ∃ t, exec .sm3Finalize s = .next t ∧
      t = { s with free := t.free, sm3 := { s.sm3 with
        v := t.sm3.v, buf := t.sm3.buf, fill := 0, final := true, err := .ok, busy := false } } ∧
      (s.sm3.fill ≤ 55 → t.sm3.v = compress s.sm3.v (blockOf
        (s.sm3.pendingBytes ++ [0x80] ++ List.replicate (55 - s.sm3.fill) 0 ++ be64Bytes (8 * s.sm3.cnt)))) ∧
      (56 ≤ s.sm3.fill → t.sm3.v = compress
        (compress s.sm3.v (blockOf (s.sm3.pendingBytes ++ [0x80] ++ List.replicate (63 - s.sm3.fill) 0)))
        (blockOf (List.replicate 56 0 ++ be64Bytes (8 * s.sm3.cnt))))

/-- 40_sm3_digest.md R119: while FINAL is 1, ABSORB with any count and FINALIZE end with `SEQUENCE` and change nothing else, and
only a reset clears FINAL. -/
def Obligations.SequenceRuleAfterFinalize : Prop :=
  (∀ (s : State) (nb : Nat), nb ≤ 64 → s.sm3.final = true →
    exec (.sm3Absorb nb) s = .next { s with sm3 := { s.sm3 with err := .sequence, busy := false } }) ∧
  (∀ s : State, s.sm3.final = true →
    exec .sm3Finalize s = .next { s with sm3 := { s.sm3 with err := .sequence, busy := false } }) ∧
  (∀ s t : State, s.sm3.final = true → step s = .next t →
    t.sm3.final = true ∨ t.sm3 = s.sm3.unitReset ∨ t.sm3 = .reset)

/-- 41_sm3_compression.md R141, R144: the 68 words of the expansion, the first 16 from the block's bytes, each further one by the
recurrence. -/
def Obligations.ExpansionFollowsRecurrence : Prop :=
  ∀ b : Vector Byte 64, (expand b).length = 68 ∧
    (∀ i : Fin 16, (expand b).getD i.val 0 =
      be32 (b[4 * i.val]'(by omega)) (b[4 * i.val + 1]'(by omega)) (b[4 * i.val + 2]'(by omega)) (b[4 * i.val + 3]'(by omega))) ∧
    (∀ i, 16 ≤ i → i ≤ 67 → (expand b).getD i 0 =
      p1 ((expand b).getD (i - 16) 0 ^^^ (expand b).getD (i - 9) 0 ^^^ rotl ((expand b).getD (i - 3) 0) 15)
        ^^^ rotl ((expand b).getD (i - 13) 0) 7 ^^^ (expand b).getD (i - 6) 0)

/-- The example of 41_sm3_compression.md R151: the padded block of "abc" compressed from `IV`. -/
def Obligations.CompressionOfAbcBlock : Prop :=
  compress Config.iv (blockOf ([0x61, 0x62, 0x63, 0x80] ++ List.replicate 59 0 ++ [0x18])) =
    #v[0x66C7F0F4, 0x62EEEDD9, 0xD1F2D46B, 0xDC10E4E2, 0x4167C487, 0x5CF2F7A2, 0x297DA02B, 0x8F4BA8E0]

/-- 40_sm3_digest.md R117: the digest's 32 bytes are the eight words, each most significant byte first, in word order, and the host
reads the word of four of them in each `SM3_Vi`. -/
def Obligations.DigestBytesMostSignificantFirst : Prop :=
  (∀ v : Vector Word 8, (digestBytes v).length = 32 ∧
    (∀ (i : Fin 8) (b : Fin 4), (digestBytes v).getD (4 * i.val + b.val) 0 = v[i].extractLsb' (24 - 8 * b.val) 8)) ∧
  (∀ (s : State) (i : Fin 8), s.regValue (.sm3V i) =
    be32 ((digestBytes s.sm3.v).getD (4 * i.val) 0) ((digestBytes s.sm3.v).getD (4 * i.val + 1) 0)
      ((digestBytes s.sm3.v).getD (4 * i.val + 2) 0) ((digestBytes s.sm3.v).getD (4 * i.val + 3) 0))

/-- 40_sm3_digest.md R113: two ways of cutting one message into pieces of at most 64 bytes give, from SM3.RESET to FINALIZE, the
same `V` and the same `CNT`. -/
def Obligations.DigestDoesNotDependOnSplit : Prop :=
  ∀ (s s' : State) (ps qs : List (Vector Word 16 × Nat)),
    (∀ p ∈ ps, p.2 ≤ 64) → (∀ p ∈ qs, p.2 ≤ 64) → messageOf ps = messageOf qs →
    ∃ a a' t t', exec .sm3Reset s = .next a ∧ exec .sm3Reset s' = .next a' ∧
      hashRun a ps = .next t ∧ hashRun a' qs = .next t' ∧ t.sm3.v = t'.sm3.v ∧ t.sm3.cnt = t'.sm3.cnt

/-- 40_sm3_digest.md R110, R115, R118: the digest is the fold of `CF` from `IV` over the padded message, whatever its length and the
way it was cut into ABSORBs. -/
def Obligations.DigestIsFoldOverPaddedMessage : Prop :=
  ∀ (s : State) (ps : List (Vector Word 16 × Nat)), (∀ p ∈ ps, p.2 ≤ 64) →
    ∃ a t, exec .sm3Reset s = .next a ∧ hashRun a ps = .next t ∧
      t.sm3.v = foldBlocks (paddedMessage (messageOf ps)) ∧
      t.sm3.cnt = BitVec.ofNat 64 (messageOf ps).length ∧ t.sm3.fill = 0 ∧ t.sm3.final = true ∧ t.sm3.err = .ok

/-! ## The SM2 unit: keys and message -/

/-- 42_sm2_signer.md R177: a private key in range is loaded, with `Q = d·G`; nothing else changes. -/
def Obligations.LoadPrivLoadsKey : Prop :=
  ∀ s : State, s.sm2.mode = .none → 0 < s.sm2.op0.toNat → s.sm2.op0.toNat < Config.curve.N →
    exec .sm2LoadPriv s = .next { s with sm2 := { s.sm2 with
      key := .signing s.sm2.op0.toNat (Config.curve.ecMul s.sm2.op0.toNat Config.curve.G), err := .ok, busy := false } }

/-- 42_sm2_signer.md R178: a point that decodes is loaded; nothing else changes. -/
def Obligations.LoadPubLoadsPoint : Prop :=
  ∀ (s : State) (q : Pt), s.sm2.mode = .none → Config.curve.ptDec s.sm2.pt0 = some q →
    exec .sm2LoadPub s = .next { s with sm2 := { s.sm2 with key := .verifying q, err := .ok, busy := false } }

/-- 42_sm2_signer.md R179: the message becomes empty, in every MODE; nothing else changes. -/
def Obligations.MsgClearEmptiesMessage : Prop :=
  ∀ s : State, exec .sm2MsgClear s = .next { s with sm2 := { s.sm2 with eacc := 0, err := .ok, busy := false } }

/-- 42_sm2_signer.md R180: the `NB` bytes join the message integer, big-endian, modulo `N`, in every MODE; nothing else changes. -/
def Obligations.MsgAbsorbIsBigEndian : Prop :=
  ∀ (s : State) (nb : Nat), nb ≤ 64 → s.sm2.eacc < Config.curve.N →
    exec (.sm2MsgAbsorb nb) s = .next { s with sm2 := { s.sm2 with
      eacc := (s.sm2.eacc * 256 ^ nb + beInt (windowBytes s.sm2.msg nb)) % Config.curve.N, err := .ok, busy := false } }

/-- 42_sm2_signer.md R175: the accumulator holds `BEINT(M) mod N`, and the unreduced `e` would give the same signature and the same
verdict. -/
def Obligations.AccumulatorGivesSameResults : Prop :=
  (∀ (n : Nat) (m : List Byte), 0 < n → foldMessage n 0 m = beInt m % n) ∧
  (∀ (c : Curve) (d e k : Nat), signPass c d (e % c.N) k = signPass c d e k) ∧
  (∀ (c : Curve) (q : Pt) (e r s : Nat), verifySignature c q (e % c.N) r s = verifySignature c q e r s)

/-! ## The SM2 unit: signing -/

/-- 42_sm2_signer.md R182: SIGN with a private key takes the first acceptable answer of the randomness source, rejects those before
it, and writes its signature; the message is consumed; nothing else changes. -/
def Obligations.SignWritesSignature : Prop :=
  ∀ (s : State) (d : Nat) (q : Pt) (pre post : List Nat) (k : Nat),
    s.sm2.key = .signing d q → (d + 1) % Config.curve.N ≠ 0 → s.answers = pre ++ k :: post →
    (∀ x ∈ pre, ¬ Acceptable Config.curve d s.sm2.eacc x) → Acceptable Config.curve d s.sm2.eacc k →
    ∃ t, exec .sm2Sign s = .next t ∧
      IsSignature Config.curve d s.sm2.eacc k t.sm2.rs0.toNat t.sm2.rs1.toNat ∧
      t = { s with answers := post, sm2 := { s.sm2 with
        rs0 := t.sm2.rs0, rs1 := t.sm2.rs1, eacc := 0, err := .ok, busy := false } }

/-- 42_sm2_signer.md R185: with no acceptable answer SIGN does not complete: the unit stays as it is, busy. That the turn has spent
the answers there were, while SIGN stays in flight, is the model's choice (log entry 8, DESIGN CHOICE). -/
def Obligations.SignWaitsForNonce : Prop :=
  ∀ (s : State) (d : Nat) (q : Pt), s.sm2.key = .signing d q → (d + 1) % Config.curve.N ≠ 0 →
    (∀ x ∈ s.answers, ¬ Acceptable Config.curve d s.sm2.eacc x) →
    exec .sm2Sign s = .next { s with answers := [] }

/-- 42_sm2_signer.md R184: "A successful SIGN writes `1 <= r <= N-1` and `1 <= s <= N-1`". -/
def Obligations.SignatureIsInRange : Prop :=
  ∀ s t : State, exec .sm2Sign s = .next t → s.sm2.busy = true → t.sm2.busy = false → t.sm2.err = .ok →
    1 ≤ t.sm2.rs0.toNat ∧ t.sm2.rs0.toNat ≤ Config.curve.N - 1 ∧
    1 ≤ t.sm2.rs1.toNat ∧ t.sm2.rs1.toNat ≤ Config.curve.N - 1

/-- 42_sm2_signer.md R186: SIGN reads neither `OP0`, `OP1`, `MSG`, `PT0`, `PT1` nor `Q`, and writes only `RS0`, `RS1`, `EACC` and `ERR`
(and BUSY, as every completion does). -/
def Obligations.SignTouchesNothingElse : Prop :=
  ∀ (s : State) (key : Key) (a b : BitVec 512) (m : Vector Word 16) (p p' : BitVec 1024),
    key.mode = s.sm2.mode → key.d = s.sm2.d →
    ∃ t t', exec .sm2Sign s = .next t ∧
      exec .sm2Sign { s with sm2 := { s.sm2 with key := key, op0 := a, op1 := b, msg := m, pt0 := p, pt1 := p' } } = .next t' ∧
      t'.sm2 = { t.sm2 with key := key, op0 := a, op1 := b, msg := m, pt0 := p, pt1 := p' } ∧ t'.answers = t.answers ∧
      t = { s with answers := t.answers, sm2 := { s.sm2 with
        rs0 := t.sm2.rs0, rs1 := t.sm2.rs1, eacc := t.sm2.eacc, err := t.sm2.err, busy := t.sm2.busy } }

/-! ## The SM2 unit: verification -/

/-- 42_sm2_signer.md R188: with a key, VERIFY completes without error; VALID is 1 exactly for `r`, `s` in range whose point is not
`INF` and gives back `r`; the message is consumed; nothing else changes. -/
def Obligations.VerifyDecidesValid : Prop :=
  ∀ (s : State) (q : Pt), s.sm2.q = some q → Config.curve.IsPoint q →
    ∃ t, exec .sm2Verify s = .next t ∧
      t = { s with sm2 := { s.sm2 with valid := t.sm2.valid, eacc := 0, err := .ok, busy := false } } ∧
      (t.sm2.valid = true ↔
        1 ≤ s.sm2.op0.toNat ∧ s.sm2.op0.toNat ≤ Config.curve.N ∧ 1 ≤ s.sm2.op1.toNat ∧ s.sm2.op1.toNat ≤ Config.curve.N ∧
        shamir Config.curve s.sm2.op1.toNat Config.curve.G ((s.sm2.op0.toNat + s.sm2.op1.toNat) % Config.curve.N) q
          ≠ Config.curve.inf ∧
        (s.sm2.eacc + Config.curve.ecX (shamir Config.curve s.sm2.op1.toNat Config.curve.G
          ((s.sm2.op0.toNat + s.sm2.op1.toNat) % Config.curve.N) q)) % Config.curve.N = s.sm2.op0.toNat)

/-- 42_sm2_signer.md R189: out of range, VERIFY gives VALID 0 over every capability with that `N`, whatever its operations answer: it
calls none of them. -/
def Obligations.VerifyRangeRejection : Prop :=
  ∀ (c : Curve) (u : Sm2) (q : Pt), u.q = some q →
    u.op0.toNat < 1 ∨ u.op1.toNat < 1 ∨ c.N < u.op0.toNat ∨ c.N < u.op1.toNat →
    u.finish (u.verifyRule c) = { u with valid := false, eacc := 0, err := .ok, busy := false }

/-- 42_sm2_signer.md R190: `r = N` never verifies; `s = N` passes the range test and the verdict is that of the point `t·Q`. -/
def Obligations.VerifyAtTheOrder : Prop :=
  ∀ c : Curve, c.Lawful → c.IsGroup → ∀ (q : Pt) (e : Nat), c.IsPoint q →
    (∀ s, verifySignature c q e c.N s = false) ∧
    (∀ r, 1 ≤ r → r ≤ c.N → (verifySignature c q e r c.N = true ↔
      c.ecMul (r % c.N) q ≠ c.inf ∧ (e + c.ecX (c.ecMul (r % c.N) q)) % c.N = r))

/-- 42_sm2_signer.md R191: "When `point = INF`, VERIFY writes `VALID = 0`". -/
def Obligations.VerifyRejectsInfinity : Prop :=
  ∀ c : Curve, c.Lawful → ∀ (u : Sm2) (q : Pt), u.q = some q →
    shamir c u.op1.toNat c.G ((u.op0.toNat + u.op1.toNat) % c.N) q = c.inf →
    u.finish (u.verifyRule c) = { u with valid := false, eacc := 0, err := .ok, busy := false }

/-- 42_sm2_signer.md R193: over a group in which `G` has order `N`, the signature of a completed SIGN verifies on the same message, with
the key that signed. -/
def Obligations.SignedMessageVerifies : Prop :=
  ∀ c : Curve, c.Lawful → c.IsGroup → ∀ (s : State) (d : Nat),
    s.sm2.key = .signing d (c.ecMul d c.G) → 0 < d → d < c.N → s.sm2.busy = true →
    (s.signOf c).sm2.busy = false → (s.signOf c).sm2.err = .ok →
    ∃ u, Sm2.verifyRule c { (s.signOf c).sm2 with
        op0 := (s.signOf c).sm2.rs0, op1 := (s.signOf c).sm2.rs1, eacc := s.sm2.eacc } = .ok u ∧ u.valid = true

/-! ## Simultaneous scalar multiplication -/

/-- 43_ec_muladd.md R211: over an abelian group, `shamir(k, P, l, Q) = k·P + l·Q`. -/
def Obligations.ShamirComputesSum : Prop :=
  ∀ c : Curve, c.Lawful → c.IsGroup → ∀ (k l : Nat) (P Q : Pt), c.IsPoint P → c.IsPoint Q →
    shamir c k P l Q = c.ecAdd (c.ecMul k P) (c.ecMul l Q)

/-- 43_ec_muladd.md R212: MULADD writes the encoding of the routine's point, in every MODE; nothing else changes. -/
def Obligations.MuladdWritesResult : Prop :=
  ∀ (s : State) (p q : Pt), Config.curve.ptDec s.sm2.pt0 = some p → Config.curve.ptDec s.sm2.pt1 = some q →
    exec .sm2Muladd s = .next { s with sm2 := { s.sm2 with
      rpt := Config.curve.ptEnc (shamir Config.curve s.sm2.op0.toNat p s.sm2.op1.toNat q), err := .ok, busy := false } }

/-! ## Errors -/

/-- 60_exceptions.md R233 to R236, in the order of R241: when each of the codes SEQUENCE, MODE_ERR, KEY_RANGE and NO_INVERSE is
raised; the command then changes ERR and BUSY only (an erroring SIGN draws nothing). -/
def Obligations.ErrorCodesAreRaised : Prop :=
  (∀ (s : State) (nb : Nat), nb ≤ 64 → s.sm3.final = true →
    exec (.sm3Absorb nb) s = .next { s with sm3 := { s.sm3 with err := .sequence, busy := false } } ∧
    exec .sm3Finalize s = .next { s with sm3 := { s.sm3 with err := .sequence, busy := false } }) ∧
  (∀ s : State, s.sm2.mode ≠ .none →
    exec .sm2LoadPriv s = .next { s with sm2 := { s.sm2 with err := .sequence, busy := false } } ∧
    exec .sm2LoadPub s = .next { s with sm2 := { s.sm2 with err := .sequence, busy := false } }) ∧
  (∀ s : State, s.sm2.mode ≠ .sign →
    exec .sm2Sign s = .next { s with sm2 := { s.sm2 with err := .modeErr, busy := false } }) ∧
  (∀ s : State, s.sm2.mode = .none →
    exec .sm2Verify s = .next { s with sm2 := { s.sm2 with err := .modeErr, busy := false } }) ∧
  (∀ s : State, s.sm2.mode = .none → s.sm2.op0.toNat = 0 ∨ Config.curve.N ≤ s.sm2.op0.toNat →
    exec .sm2LoadPriv s = .next { s with sm2 := { s.sm2 with err := .keyRange, busy := false } }) ∧
  (∀ s : State, s.sm2.mode = .sign → (s.sm2.d + 1) % Config.curve.N = 0 →
    exec .sm2Sign s = .next { s with sm2 := { s.sm2 with err := .noInverse, busy := false } })

/-- 60_exceptions.md R237: BAD_POINT, over every capability; the command changes ERR and BUSY only, and the two commands run these
rules over the configured one. -/
def Obligations.BadPointIsRaised : Prop :=
  (∀ (c : Curve) (u : Sm2), u.mode = .none → c.ptDec u.pt0 = none →
    u.finish (u.loadPubRule c) = { u with err := .badPoint, busy := false }) ∧
  (∀ (c : Curve) (u : Sm2), c.ptDec u.pt0 = none ∨ c.ptDec u.pt1 = none →
    u.finish (u.muladdRule c) = { u with err := .badPoint, busy := false }) ∧
  (∀ s : State, exec .sm2LoadPub s = .next { s with sm2 := s.sm2.finish (s.sm2.loadPubRule Config.curve) } ∧
    exec .sm2Muladd s = .next { s with sm2 := s.sm2.finish (s.sm2.muladdRule Config.curve) })

/-- 60_exceptions.md R230: a command that ends with an error code changes nothing of its unit but ERR and BUSY. -/
def Obligations.ErrorsArePrecise : Prop :=
  ∀ (i : Instr) (s t : State), exec i s = .next t →
    (i.unit = .sm3 → t.sm3.err ≠ .ok → t.sm3 = { s.sm3 with err := t.sm3.err, busy := t.sm3.busy }) ∧
    (i.unit = .sm2 → t.sm2.err ≠ .ok → t.sm2 = { s.sm2 with err := t.sm2.err, busy := t.sm2.busy })

/-! ## The machine as a whole -/

/-- The invariant holds after reset. -/
def Obligations.ResetMeetsInvariant : Prop := State.reset.Inv

/-- Every step from a state that meets the invariant gives one that meets it (10_state.md R24, R29, R31, R37; 40_sm3_digest.md R110;
42_sm2_signer.md R172, R184). -/
def Obligations.StepKeepsInvariant : Prop :=
  ∀ s t : State, s.Inv → step s = .next t → t.Inv

/-- 00_scope.md R3: "No command, register or state of one unit reads or writes any state of the other". The counter of free values
is the model's own. -/
def Obligations.UnitsAreIndependent : Prop :=
  (∀ (i : Instr) (s s' : State), i.unit = .sm3 → s.sm3 = s'.sm3 → s.free = s'.free →
    ∃ t t', exec i s = .next t ∧ exec i s' = .next t' ∧ t.sm3 = t'.sm3 ∧ t.sm2 = s.sm2 ∧ t.answers = s.answers) ∧
  (∀ (i : Instr) (s s' : State), i.unit = .sm2 → s.sm2 = s'.sm2 → s.answers = s'.answers →
    ∃ t t', exec i s = .next t ∧ exec i s' = .next t' ∧ t.sm2 = t'.sm2 ∧ t.answers = t'.answers ∧ t.sm3 = s.sm3) ∧
  (∀ (r : Reg) (s s' : State), r.unit = .sm3 → s.sm3 = s'.sm3 → s.regValue r = s'.regValue r) ∧
  (∀ (r : Reg) (s s' : State), r.unit = .sm2 → s.sm2 = s'.sm2 → s.regValue r = s'.regValue r) ∧
  (∀ (r : Reg) (v : Word) (s t : State), s.writeReg r v = .next t →
    (r.unit = .sm3 → t.sm2 = s.sm2) ∧ (r.unit = .sm2 → t.sm3 = s.sm3))

/-- 10_state.md R29: `D` is "never readable by the host through any register": two machines that differ in `D` alone, with the same
point `Q`, are answered alike. (`Q = D·G` is readable, so two keys with their own points are told apart by it.) -/
def Obligations.PrivateKeyIsUnreadable : Prop :=
  ∀ (s : State) (d d' : Nat) (q : Pt) (width : Nat) (a : BitVec 12) (t : State),
    busRead width a { s with sm2 := { s.sm2 with key := .signing d q } } = .next t →
    ∃ t', busRead width a { s with sm2 := { s.sm2 with key := .signing d' q } } = .next t' ∧ t'.seen = t.seen

/-- 10_state.md R28 to R30: MODE, `D` and `Q` are "Written by LOAD_PRIV, LOAD_PUB and reset only", the loads from MODE NONE only. -/
def Obligations.KeyChangesOnlyByLoadOrReset : Prop :=
  ∀ s t : State, step s = .next t → t.sm2.key ≠ s.sm2.key →
    t.sm2 = s.sm2.unitReset ∨ t.sm2 = .reset ∨
    (s.sm2.mode = .none ∧ s.sm2.busy = true ∧ (s.sm2.pend = 0x00000010 ∨ s.sm2.pend = 0x00000011) ∧ t.sm2.busy = false)

/-- 10_state.md R32: VALID is "Written only by VERIFY completion and reset". -/
def Obligations.ValidChangesOnlyByVerifyOrReset : Prop :=
  ∀ s t : State, step s = .next t → t.sm2.valid ≠ s.sm2.valid →
    t.sm2 = s.sm2.unitReset ∨ t.sm2 = .reset ∨
    (s.sm2.busy = true ∧ s.sm2.pend = 0x00000031 ∧ t.sm2.busy = false)

/-- 10_state.md R20, R22: `V` changes only by a completion of ABSORB or FINALIZE and by reset, `CNT` only by one of ABSORB and by
reset. -/
def Obligations.ChainingChangesOnlyBySm3Commands : Prop :=
  ∀ s t : State, step s = .next t →
    (t.sm3.v ≠ s.sm3.v → t.sm3 = s.sm3.unitReset ∨ t.sm3 = .reset ∨
      (s.sm3.busy = true ∧ t.sm3.busy = false ∧
        ((∃ nb, decode .sm3 s.sm3.pend = .ok (.sm3Absorb nb)) ∨ decode .sm3 s.sm3.pend = .ok .sm3Finalize))) ∧
    (t.sm3.cnt ≠ s.sm3.cnt → t.sm3 = s.sm3.unitReset ∨ t.sm3 = .reset ∨
      (s.sm3.busy = true ∧ t.sm3.busy = false ∧ ∃ nb, decode .sm3 s.sm3.pend = .ok (.sm3Absorb nb)))

/-- 10_state.md R27, R34, R35, R36: no command writes a host window; nor does any write a word in flight, or what lies outside the
engine. -/
def Obligations.CommandsKeepHostWindows : Prop :=
  ∀ (i : Instr) (s : State), ∃ t, exec i s = .next t ∧
    t.sm3.din = s.sm3.din ∧ t.sm2.op0 = s.sm2.op0 ∧ t.sm2.op1 = s.sm2.op1 ∧ t.sm2.msg = s.sm2.msg ∧
    t.sm2.pt0 = s.sm2.pt0 ∧ t.sm2.pt1 = s.sm2.pt1 ∧
    t.program = s.program ∧ t.seen = s.seen ∧ t.turns = s.turns

/-- A host whose accesses are all 32 bits wide, at registers, and none a write to a read-only one, meets no fault in any number of
steps, whatever the units, the randomness source and the reset input do (60_exceptions.md R239). -/
def Obligations.LegalProgramMeetsNoFault : Prop :=
  ∀ (n : Nat) (s : State), (∀ st ∈ s.program, st.Legal) → SafeFor n s

/-- 30_encoding.md R100: the sixteen writes of `LOADWIN SM2_OP0, X`, performed one after another on an idle SM2 unit, leave
`OP0 = X` and nothing else changed. -/
def Obligations.LoadWindowLoads : Prop :=
  ∀ (s : State) (x : BitVec 512) (rest : List Stmt) (turns : List Agent), s.sm2.busy = false →
    s.program = loadWin 16 Reg.sm2Op0 x ++ rest → s.turns = List.replicate 16 .host ++ turns →
    Host.Core.run core 16 s =
      (.next { s with sm2 := { s.sm2 with op0 := x }, program := rest, turns := turns } : Host.Outcome State Fault Refusal)

/-- 30_encoding.md R100, 20_memory.md R70: a POLL reads the unit's STATUS; it is repeated while the unit is busy and done when it is
not. That it is one read a turn, the POLL staying the host's next statement meanwhile, is the model's reading (log entry 21,
DEDUCED). -/
def Obligations.PollWaitsForCompletion : Prop :=
  ∀ (s : State) (u : UnitId) (rest : List Stmt), s.program = .poll u :: rest →
    takeTurn .host s = .next { s with
      program := if s.busy u = true then s.program else rest
      seen := (match u with | .sm3 => s.sm3.status | .sm2 => s.sm2.status) :: s.seen }
end

