-- ==== Sys2Proof/Laws/Arith.lean ====
section
/-! SUPPORT. What the big-integer operations compute. -/

namespace Sys2Proof.Machine

/-! ## Bit length -/

theorem lt_two_pow_bitlen (a : Nat) : a < 2 ^ bitlen a := by
  unfold bitlen
  split
  · simp_all
  · exact Nat.lt_log2_self

/-- A number below a power of two has at most that many bits. -/
theorem bitlen_le_of_lt {a m : Nat} (h : a < 2 ^ m) : bitlen a ≤ m := by
  unfold bitlen
  split
  · omega
  · rename_i h0
    have := (Nat.log2_lt h0).2 h
    omega

/-- A number whose bit length is at most `m` is below `2^m`. -/
theorem lt_two_pow_of_bitlen_le {a m : Nat} (h : bitlen a ≤ m) : a < 2 ^ m :=
  Nat.lt_of_lt_of_le (lt_two_pow_bitlen a) (Nat.pow_le_pow_right (by decide) h)

/-! ## The modular inverse -/

/-- The Euclidean descent ends with a coefficient of `a` that gives the gcd. -/
theorem euclid_spec (n a : Int) (fuel : Nat) : ∀ (r0 r1 : Nat) (s0 s1 : Int), r1 < fuel →
    n ∣ s0 * a - r0 → n ∣ s1 * a - r1 → n ∣ euclid fuel r0 r1 s0 s1 * a - (Nat.gcd r0 r1 : Nat) := by
  induction fuel with
  | zero => intro r0 r1 s0 s1 h; omega
  | succ fuel ih =>
    intro r0 r1 s0 s1 hlt h0 h1
    unfold euclid
    split
    · rename_i hz
      subst hz
      simpa using h0
    · rename_i hz
      have hmod : r0 % r1 < r1 := Nat.mod_lt _ (by omega)
      have key := ih r1 (r0 % r1) s1 (s0 - (r0 / r1 : Nat) * s1) (by omega) h1 (by
        have hr : ((r0 % r1 : Nat) : Int) = r0 - (r0 / r1 : Nat) * r1 := by
          have h2 : ((r1 * (r0 / r1) + r0 % r1 : Nat) : Int) = r0 := by rw [Nat.div_add_mod]
          rw [Nat.cast_add, Nat.cast_mul] at h2
          linarith
        rw [hr]
        have : (s0 - (r0 / r1 : Nat) * s1) * a - (r0 - (r0 / r1 : Nat) * r1)
            = (s0 * a - r0) - (r0 / r1 : Nat) * (s1 * a - r1) := by ring
        rw [this]
        exact dvd_sub h0 (Dvd.dvd.mul_left h1 _))
      rw [Nat.gcd_comm r0 r1, Nat.gcd_rec r1 r0, Nat.gcd_comm (r0 % r1) r1]
      exact key

/-- `inv_N(a)` is the inverse, where there is one (00_scope.md R12). -/
theorem invMod_spec {n a : Nat} (hp : n.Prime) (ha : a % n ≠ 0) : a * invMod n a % n = 1 := by
  have hpos : 0 < n := hp.pos
  have hcop : Nat.gcd n (a % n) = 1 := by
    rw [Nat.Coprime.gcd_eq_one]
    refine (Nat.Prime.coprime_iff_not_dvd hp).2 fun hd => ha ?_
    rw [Nat.dvd_iff_mod_eq_zero, Nat.mod_mod] at hd
    exact hd
  have he := euclid_spec (n : Int) (a : Int) (n + 1) n (a % n) 0 1
    (Nat.lt_succ_of_lt (Nat.mod_lt _ hpos)) (by simp) (by
      rw [one_mul]
      exact Int.dvd_self_sub_of_emod_eq (by simp))
  rw [hcop] at he
  have hx : ((invMod n a : Nat) : Int) = euclid (n + 1) n (a % n) 0 1 % (n : Int) := by
    unfold invMod
    exact Int.toNat_of_nonneg (Int.emod_nonneg _ (by exact_mod_cast hpos.ne'))
  have h2 : ((a * invMod n a % n : Nat) : Int) = ((1 % n : Nat) : Int) := by
    push_cast
    rw [hx, Int.mul_emod, Int.emod_emod_of_dvd _ (dvd_refl _), ← Int.mul_emod, mul_comm]
    exact (Int.modEq_iff_dvd.2 (by simpa using he)).symm
  have h3 : a * invMod n a % n = 1 % n := by exact_mod_cast h2
  rwa [Nat.mod_eq_of_lt hp.one_lt] at h3

/-- `inv_N(a)` is a residue. -/
theorem invMod_lt {n : Nat} (a : Nat) (hn : 0 < n) : invMod n a < n := by
  unfold invMod
  have := Int.emod_lt_of_pos (euclid (n + 1) n (a % n) 0 1) (b := (n : Int)) (by exact_mod_cast hn)
  have h0 := Int.emod_nonneg (euclid (n + 1) n (a % n) 0 1) (b := (n : Int)) (by exact_mod_cast hn.ne')
  omega

/-! ## Subtraction modulo `N` -/

theorem subMod_lt {n : Nat} (k x : Nat) (hn : 0 < n) : subMod n k x < n := by
  unfold subMod
  have := Int.emod_lt_of_pos ((k : Int) - x) (b := (n : Int)) (by exact_mod_cast hn)
  have h0 := Int.emod_nonneg ((k : Int) - x) (b := (n : Int)) (by exact_mod_cast hn.ne')
  omega

/-- `(k - x) mod N`, put back on the other side. -/
theorem subMod_add {n : Nat} (k x : Nat) (hn : 0 < n) : (subMod n k x + x) % n = k % n := by
  have h0 : ((subMod n k x : Nat) : Int) = ((k : Int) - x) % n := by
    unfold subMod
    exact Int.toNat_of_nonneg (Int.emod_nonneg _ (by exact_mod_cast hn.ne'))
  have : (((subMod n k x + x) % n : Nat) : Int) = ((k % n : Nat) : Int) := by
    push_cast
    rw [h0, Int.emod_add_emod, sub_add_cancel]
  exact_mod_cast this

end Sys2Proof.Machine
end

