-- ==== Sys2Proof/Laws/Decode.lean ====
section
/-! SUPPORT. What a decoded word's fields are, said once; later proofs do not unfold the decoder. -/

namespace Sys2Proof

/-- A word that decodes has `RSV = 0` and the opcode and the count of its command, and the command is well-formed. -/
theorem decode_ok {u : UnitId} {v : Word} {i : Instr} (h : decode u v = .ok i) :
    i.unit = u ∧ i.wf = true ∧ fieldRsv v = 0 ∧ fieldOp v = i.opcode ∧ fieldNb v = i.count := by
  unfold decode at h
  split at h
  · cases h
  · rename_i hr
    have hr : fieldRsv v = 0 := by simpa using hr
    generalize hm : opcodeMap u (fieldOp v) = m at h
    cases u <;> simp only [opcodeMap] at hm <;> repeat' (split at hm)
    all_goals subst hm
    all_goals first
      | cases h
      | (dsimp only at h
         split at h <;> cases h
         rename_i hn
         simp [Instr.unit, Instr.wf, Instr.opcode, Instr.count, hr, hn]
         try assumption)

/-- A word is its three fields put together. -/
theorem word_of_fields (v : Word) :
    v = (fieldRsv v ++ BitVec.ofNat 7 (fieldNb v) ++ fieldOp v : BitVec (17 + 7 + 8)) := by
  unfold fieldRsv fieldNb fieldOp
  rw [BitVec.ofNat_toNat, BitVec.setWidth_eq]
  apply BitVec.eq_of_getLsbD_eq
  intro i hi
  simp only [BitVec.getLsbD_append, BitVec.getLsbD_extractLsb']
  by_cases h1 : i < 8
  · simp [h1]
  · by_cases h2 : i - 8 < 7
    · simp [h1, h2]; congr 1; omega
    · have : i - 8 - 7 < 17 := by omega
      simp [h1, h2, this]; congr 1; omega

end Sys2Proof
end

