-- ==== Sys2Proof/Laws/State.lean ====
section
/-! SUPPORT. One lemma per field per update, so that no later proof unfolds a record update. -/

namespace Sys2Proof.Machine

/-! ## State.withSm3 -/

@[simp] theorem State.withSm3_sm3 (s : State) (u : Sm3) : (s.withSm3 u).sm3 = u := rfl
@[simp] theorem State.withSm3_sm2 (s : State) (u : Sm3) : (s.withSm3 u).sm2 = s.sm2 := rfl
@[simp] theorem State.withSm3_program (s : State) (u : Sm3) : (s.withSm3 u).program = s.program := rfl
@[simp] theorem State.withSm3_seen (s : State) (u : Sm3) : (s.withSm3 u).seen = s.seen := rfl
@[simp] theorem State.withSm3_answers (s : State) (u : Sm3) : (s.withSm3 u).answers = s.answers := rfl
@[simp] theorem State.withSm3_turns (s : State) (u : Sm3) : (s.withSm3 u).turns = s.turns := rfl
@[simp] theorem State.withSm3_free (s : State) (u : Sm3) : (s.withSm3 u).free = s.free := rfl

/-! ## State.withSm2 -/

@[simp] theorem State.withSm2_sm3 (s : State) (u : Sm2) : (s.withSm2 u).sm3 = s.sm3 := rfl
@[simp] theorem State.withSm2_sm2 (s : State) (u : Sm2) : (s.withSm2 u).sm2 = u := rfl
@[simp] theorem State.withSm2_program (s : State) (u : Sm2) : (s.withSm2 u).program = s.program := rfl
@[simp] theorem State.withSm2_seen (s : State) (u : Sm2) : (s.withSm2 u).seen = s.seen := rfl
@[simp] theorem State.withSm2_answers (s : State) (u : Sm2) : (s.withSm2 u).answers = s.answers := rfl
@[simp] theorem State.withSm2_turns (s : State) (u : Sm2) : (s.withSm2 u).turns = s.turns := rfl
@[simp] theorem State.withSm2_free (s : State) (u : Sm2) : (s.withSm2 u).free = s.free := rfl

/-! ## State.withProgram -/

@[simp] theorem State.withProgram_sm3 (s : State) (p : List Stmt) : (s.withProgram p).sm3 = s.sm3 := rfl
@[simp] theorem State.withProgram_sm2 (s : State) (p : List Stmt) : (s.withProgram p).sm2 = s.sm2 := rfl
@[simp] theorem State.withProgram_program (s : State) (p : List Stmt) : (s.withProgram p).program = p := rfl
@[simp] theorem State.withProgram_seen (s : State) (p : List Stmt) : (s.withProgram p).seen = s.seen := rfl
@[simp] theorem State.withProgram_answers (s : State) (p : List Stmt) : (s.withProgram p).answers = s.answers := rfl
@[simp] theorem State.withProgram_turns (s : State) (p : List Stmt) : (s.withProgram p).turns = s.turns := rfl
@[simp] theorem State.withProgram_free (s : State) (p : List Stmt) : (s.withProgram p).free = s.free := rfl

/-! ## State.see -/

@[simp] theorem State.see_sm3 (s : State) (x : Word) : (s.see x).sm3 = s.sm3 := rfl
@[simp] theorem State.see_sm2 (s : State) (x : Word) : (s.see x).sm2 = s.sm2 := rfl
@[simp] theorem State.see_program (s : State) (x : Word) : (s.see x).program = s.program := rfl
@[simp] theorem State.see_seen (s : State) (x : Word) : (s.see x).seen = x :: s.seen := rfl
@[simp] theorem State.see_answers (s : State) (x : Word) : (s.see x).answers = s.answers := rfl
@[simp] theorem State.see_turns (s : State) (x : Word) : (s.see x).turns = s.turns := rfl
@[simp] theorem State.see_free (s : State) (x : Word) : (s.see x).free = s.free := rfl

/-! ## State.withAnswers -/

@[simp] theorem State.withAnswers_sm3 (s : State) (a : List Nat) : (s.withAnswers a).sm3 = s.sm3 := rfl
@[simp] theorem State.withAnswers_sm2 (s : State) (a : List Nat) : (s.withAnswers a).sm2 = s.sm2 := rfl
@[simp] theorem State.withAnswers_program (s : State) (a : List Nat) : (s.withAnswers a).program = s.program := rfl
@[simp] theorem State.withAnswers_seen (s : State) (a : List Nat) : (s.withAnswers a).seen = s.seen := rfl
@[simp] theorem State.withAnswers_answers (s : State) (a : List Nat) : (s.withAnswers a).answers = a := rfl
@[simp] theorem State.withAnswers_turns (s : State) (a : List Nat) : (s.withAnswers a).turns = s.turns := rfl
@[simp] theorem State.withAnswers_free (s : State) (a : List Nat) : (s.withAnswers a).free = s.free := rfl

/-! ## State.withTurns -/

@[simp] theorem State.withTurns_sm3 (s : State) (l : List Agent) : (s.withTurns l).sm3 = s.sm3 := rfl
@[simp] theorem State.withTurns_sm2 (s : State) (l : List Agent) : (s.withTurns l).sm2 = s.sm2 := rfl
@[simp] theorem State.withTurns_program (s : State) (l : List Agent) : (s.withTurns l).program = s.program := rfl
@[simp] theorem State.withTurns_seen (s : State) (l : List Agent) : (s.withTurns l).seen = s.seen := rfl
@[simp] theorem State.withTurns_answers (s : State) (l : List Agent) : (s.withTurns l).answers = s.answers := rfl
@[simp] theorem State.withTurns_turns (s : State) (l : List Agent) : (s.withTurns l).turns = l := rfl
@[simp] theorem State.withTurns_free (s : State) (l : List Agent) : (s.withTurns l).free = s.free := rfl

/-! ## State.tick -/

@[simp] theorem State.tick_sm3 (s : State) : (s.tick).sm3 = s.sm3 := rfl
@[simp] theorem State.tick_sm2 (s : State) : (s.tick).sm2 = s.sm2 := rfl
@[simp] theorem State.tick_program (s : State) : (s.tick).program = s.program := rfl
@[simp] theorem State.tick_seen (s : State) : (s.tick).seen = s.seen := rfl
@[simp] theorem State.tick_answers (s : State) : (s.tick).answers = s.answers := rfl
@[simp] theorem State.tick_turns (s : State) : (s.tick).turns = s.turns := rfl
@[simp] theorem State.tick_free (s : State) : (s.tick).free = s.free + 1 := rfl

/-! ## Sm3.unitReset -/

@[simp] theorem Sm3.unitReset_v (u : Sm3) : u.unitReset.v = Config.iv := rfl
@[simp] theorem Sm3.unitReset_cntHi (u : Sm3) : u.unitReset.cntHi = 0 := rfl
@[simp] theorem Sm3.unitReset_cntLo (u : Sm3) : u.unitReset.cntLo = 0 := rfl
@[simp] theorem Sm3.unitReset_buf (u : Sm3) : u.unitReset.buf = Vector.replicate 64 0 := rfl
@[simp] theorem Sm3.unitReset_fill (u : Sm3) : u.unitReset.fill = 0 := rfl
@[simp] theorem Sm3.unitReset_final (u : Sm3) : u.unitReset.final = false := rfl
@[simp] theorem Sm3.unitReset_busy (u : Sm3) : u.unitReset.busy = false := rfl
@[simp] theorem Sm3.unitReset_err (u : Sm3) : u.unitReset.err = .ok := rfl
@[simp] theorem Sm3.unitReset_ovr (u : Sm3) : u.unitReset.ovr = false := rfl
@[simp] theorem Sm3.unitReset_pend (u : Sm3) : u.unitReset.pend = u.pend := rfl
@[simp] theorem Sm3.unitReset_din (u : Sm3) : u.unitReset.din = u.din := rfl

/-! ## Sm2.unitReset -/

@[simp] theorem Sm2.unitReset_key (u : Sm2) : u.unitReset.key = .empty := rfl
@[simp] theorem Sm2.unitReset_eacc (u : Sm2) : u.unitReset.eacc = 0 := rfl
@[simp] theorem Sm2.unitReset_valid (u : Sm2) : u.unitReset.valid = false := rfl
@[simp] theorem Sm2.unitReset_busy (u : Sm2) : u.unitReset.busy = false := rfl
@[simp] theorem Sm2.unitReset_err (u : Sm2) : u.unitReset.err = .ok := rfl
@[simp] theorem Sm2.unitReset_ovr (u : Sm2) : u.unitReset.ovr = false := rfl
@[simp] theorem Sm2.unitReset_pend (u : Sm2) : u.unitReset.pend = u.pend := rfl
@[simp] theorem Sm2.unitReset_op0 (u : Sm2) : u.unitReset.op0 = u.op0 := rfl
@[simp] theorem Sm2.unitReset_op1 (u : Sm2) : u.unitReset.op1 = u.op1 := rfl
@[simp] theorem Sm2.unitReset_msg (u : Sm2) : u.unitReset.msg = u.msg := rfl
@[simp] theorem Sm2.unitReset_pt0 (u : Sm2) : u.unitReset.pt0 = u.pt0 := rfl
@[simp] theorem Sm2.unitReset_pt1 (u : Sm2) : u.unitReset.pt1 = u.pt1 := rfl
@[simp] theorem Sm2.unitReset_rs0 (u : Sm2) : u.unitReset.rs0 = 0 := rfl
@[simp] theorem Sm2.unitReset_rs1 (u : Sm2) : u.unitReset.rs1 = 0 := rfl
@[simp] theorem Sm2.unitReset_rpt (u : Sm2) : u.unitReset.rpt = 0 := rfl

/-! ## Sm3.finish -/

@[simp] theorem Sm3.finish_error_v (u : Sm3) (c : ErrCode) : (u.finish (.error c)).v = u.v := rfl
@[simp] theorem Sm3.finish_error_cntHi (u : Sm3) (c : ErrCode) : (u.finish (.error c)).cntHi = u.cntHi := rfl
@[simp] theorem Sm3.finish_error_cntLo (u : Sm3) (c : ErrCode) : (u.finish (.error c)).cntLo = u.cntLo := rfl
@[simp] theorem Sm3.finish_error_buf (u : Sm3) (c : ErrCode) : (u.finish (.error c)).buf = u.buf := rfl
@[simp] theorem Sm3.finish_error_fill (u : Sm3) (c : ErrCode) : (u.finish (.error c)).fill = u.fill := rfl
@[simp] theorem Sm3.finish_error_final (u : Sm3) (c : ErrCode) : (u.finish (.error c)).final = u.final := rfl
@[simp] theorem Sm3.finish_error_busy (u : Sm3) (c : ErrCode) : (u.finish (.error c)).busy = false := rfl
@[simp] theorem Sm3.finish_error_err (u : Sm3) (c : ErrCode) : (u.finish (.error c)).err = c := rfl
@[simp] theorem Sm3.finish_error_ovr (u : Sm3) (c : ErrCode) : (u.finish (.error c)).ovr = u.ovr := rfl
@[simp] theorem Sm3.finish_error_pend (u : Sm3) (c : ErrCode) : (u.finish (.error c)).pend = u.pend := rfl
@[simp] theorem Sm3.finish_error_din (u : Sm3) (c : ErrCode) : (u.finish (.error c)).din = u.din := rfl
@[simp] theorem Sm3.finish_ok_v (u u' : Sm3) : (u.finish (.ok u')).v = u'.v := rfl
@[simp] theorem Sm3.finish_ok_cntHi (u u' : Sm3) : (u.finish (.ok u')).cntHi = u'.cntHi := rfl
@[simp] theorem Sm3.finish_ok_cntLo (u u' : Sm3) : (u.finish (.ok u')).cntLo = u'.cntLo := rfl
@[simp] theorem Sm3.finish_ok_buf (u u' : Sm3) : (u.finish (.ok u')).buf = u'.buf := rfl
@[simp] theorem Sm3.finish_ok_fill (u u' : Sm3) : (u.finish (.ok u')).fill = u'.fill := rfl
@[simp] theorem Sm3.finish_ok_final (u u' : Sm3) : (u.finish (.ok u')).final = u'.final := rfl
@[simp] theorem Sm3.finish_ok_busy (u u' : Sm3) : (u.finish (.ok u')).busy = false := rfl
@[simp] theorem Sm3.finish_ok_err (u u' : Sm3) : (u.finish (.ok u')).err = .ok := rfl
@[simp] theorem Sm3.finish_ok_ovr (u u' : Sm3) : (u.finish (.ok u')).ovr = u'.ovr := rfl
@[simp] theorem Sm3.finish_ok_pend (u u' : Sm3) : (u.finish (.ok u')).pend = u'.pend := rfl
@[simp] theorem Sm3.finish_ok_din (u u' : Sm3) : (u.finish (.ok u')).din = u'.din := rfl

/-! ## Sm2.finish -/

@[simp] theorem Sm2.finish_error_key (u : Sm2) (c : ErrCode) : (u.finish (.error c)).key = u.key := rfl
@[simp] theorem Sm2.finish_error_eacc (u : Sm2) (c : ErrCode) : (u.finish (.error c)).eacc = u.eacc := rfl
@[simp] theorem Sm2.finish_error_valid (u : Sm2) (c : ErrCode) : (u.finish (.error c)).valid = u.valid := rfl
@[simp] theorem Sm2.finish_error_busy (u : Sm2) (c : ErrCode) : (u.finish (.error c)).busy = false := rfl
@[simp] theorem Sm2.finish_error_err (u : Sm2) (c : ErrCode) : (u.finish (.error c)).err = c := rfl
@[simp] theorem Sm2.finish_error_ovr (u : Sm2) (c : ErrCode) : (u.finish (.error c)).ovr = u.ovr := rfl
@[simp] theorem Sm2.finish_error_pend (u : Sm2) (c : ErrCode) : (u.finish (.error c)).pend = u.pend := rfl
@[simp] theorem Sm2.finish_error_op0 (u : Sm2) (c : ErrCode) : (u.finish (.error c)).op0 = u.op0 := rfl
@[simp] theorem Sm2.finish_error_op1 (u : Sm2) (c : ErrCode) : (u.finish (.error c)).op1 = u.op1 := rfl
@[simp] theorem Sm2.finish_error_msg (u : Sm2) (c : ErrCode) : (u.finish (.error c)).msg = u.msg := rfl
@[simp] theorem Sm2.finish_error_pt0 (u : Sm2) (c : ErrCode) : (u.finish (.error c)).pt0 = u.pt0 := rfl
@[simp] theorem Sm2.finish_error_pt1 (u : Sm2) (c : ErrCode) : (u.finish (.error c)).pt1 = u.pt1 := rfl
@[simp] theorem Sm2.finish_error_rs0 (u : Sm2) (c : ErrCode) : (u.finish (.error c)).rs0 = u.rs0 := rfl
@[simp] theorem Sm2.finish_error_rs1 (u : Sm2) (c : ErrCode) : (u.finish (.error c)).rs1 = u.rs1 := rfl
@[simp] theorem Sm2.finish_error_rpt (u : Sm2) (c : ErrCode) : (u.finish (.error c)).rpt = u.rpt := rfl
@[simp] theorem Sm2.finish_ok_key (u u' : Sm2) : (u.finish (.ok u')).key = u'.key := rfl
@[simp] theorem Sm2.finish_ok_eacc (u u' : Sm2) : (u.finish (.ok u')).eacc = u'.eacc := rfl
@[simp] theorem Sm2.finish_ok_valid (u u' : Sm2) : (u.finish (.ok u')).valid = u'.valid := rfl
@[simp] theorem Sm2.finish_ok_busy (u u' : Sm2) : (u.finish (.ok u')).busy = false := rfl
@[simp] theorem Sm2.finish_ok_err (u u' : Sm2) : (u.finish (.ok u')).err = .ok := rfl
@[simp] theorem Sm2.finish_ok_ovr (u u' : Sm2) : (u.finish (.ok u')).ovr = u'.ovr := rfl
@[simp] theorem Sm2.finish_ok_pend (u u' : Sm2) : (u.finish (.ok u')).pend = u'.pend := rfl
@[simp] theorem Sm2.finish_ok_op0 (u u' : Sm2) : (u.finish (.ok u')).op0 = u'.op0 := rfl
@[simp] theorem Sm2.finish_ok_op1 (u u' : Sm2) : (u.finish (.ok u')).op1 = u'.op1 := rfl
@[simp] theorem Sm2.finish_ok_msg (u u' : Sm2) : (u.finish (.ok u')).msg = u'.msg := rfl
@[simp] theorem Sm2.finish_ok_pt0 (u u' : Sm2) : (u.finish (.ok u')).pt0 = u'.pt0 := rfl
@[simp] theorem Sm2.finish_ok_pt1 (u u' : Sm2) : (u.finish (.ok u')).pt1 = u'.pt1 := rfl
@[simp] theorem Sm2.finish_ok_rs0 (u u' : Sm2) : (u.finish (.ok u')).rs0 = u'.rs0 := rfl
@[simp] theorem Sm2.finish_ok_rs1 (u u' : Sm2) : (u.finish (.ok u')).rs1 = u'.rs1 := rfl
@[simp] theorem Sm2.finish_ok_rpt (u u' : Sm2) : (u.finish (.ok u')).rpt = u'.rpt := rfl

/-! ## Sm3.countBytes -/

@[simp] theorem Sm3.countBytes_v (u : Sm3) (n : Nat) : (u.countBytes n).v = u.v := rfl
@[simp] theorem Sm3.countBytes_buf (u : Sm3) (n : Nat) : (u.countBytes n).buf = u.buf := rfl
@[simp] theorem Sm3.countBytes_fill (u : Sm3) (n : Nat) : (u.countBytes n).fill = u.fill := rfl
@[simp] theorem Sm3.countBytes_final (u : Sm3) (n : Nat) : (u.countBytes n).final = u.final := rfl
@[simp] theorem Sm3.countBytes_busy (u : Sm3) (n : Nat) : (u.countBytes n).busy = u.busy := rfl
@[simp] theorem Sm3.countBytes_err (u : Sm3) (n : Nat) : (u.countBytes n).err = u.err := rfl
@[simp] theorem Sm3.countBytes_ovr (u : Sm3) (n : Nat) : (u.countBytes n).ovr = u.ovr := rfl
@[simp] theorem Sm3.countBytes_pend (u : Sm3) (n : Nat) : (u.countBytes n).pend = u.pend := rfl
@[simp] theorem Sm3.countBytes_din (u : Sm3) (n : Nat) : (u.countBytes n).din = u.din := rfl

/-! ## State.hardReset -/

@[simp] theorem State.hardReset_sm3 (s : State) : s.hardReset.sm3 = .reset := rfl
@[simp] theorem State.hardReset_sm2 (s : State) : s.hardReset.sm2 = .reset := rfl
@[simp] theorem State.hardReset_program (s : State) : s.hardReset.program = s.program := rfl
@[simp] theorem State.hardReset_seen (s : State) : s.hardReset.seen = s.seen := rfl
@[simp] theorem State.hardReset_answers (s : State) : s.hardReset.answers = s.answers := rfl
@[simp] theorem State.hardReset_turns (s : State) : s.hardReset.turns = s.turns := rfl
@[simp] theorem State.hardReset_free (s : State) : s.hardReset.free = s.free := rfl

/-! ## raise, issue, dropWrite: what lies outside the units -/

@[simp] theorem State.raise_program (s : State) (u : UnitId) (c : ErrCode) : (s.raise u c).program = s.program := by cases u <;> rfl
@[simp] theorem State.raise_seen (s : State) (u : UnitId) (c : ErrCode) : (s.raise u c).seen = s.seen := by cases u <;> rfl
@[simp] theorem State.raise_answers (s : State) (u : UnitId) (c : ErrCode) : (s.raise u c).answers = s.answers := by cases u <;> rfl
@[simp] theorem State.raise_turns (s : State) (u : UnitId) (c : ErrCode) : (s.raise u c).turns = s.turns := by cases u <;> rfl
@[simp] theorem State.raise_free (s : State) (u : UnitId) (c : ErrCode) : (s.raise u c).free = s.free := by cases u <;> rfl

@[simp] theorem State.issue_program (s : State) (u : UnitId) (v : Word) : (s.issue u v).program = s.program := by cases u <;> rfl
@[simp] theorem State.issue_seen (s : State) (u : UnitId) (v : Word) : (s.issue u v).seen = s.seen := by cases u <;> rfl
@[simp] theorem State.issue_answers (s : State) (u : UnitId) (v : Word) : (s.issue u v).answers = s.answers := by cases u <;> rfl
@[simp] theorem State.issue_turns (s : State) (u : UnitId) (v : Word) : (s.issue u v).turns = s.turns := by cases u <;> rfl
@[simp] theorem State.issue_free (s : State) (u : UnitId) (v : Word) : (s.issue u v).free = s.free := by cases u <;> rfl

@[simp] theorem State.dropWrite_program (s : State) (u : UnitId) : (s.dropWrite u).program = s.program := by cases u <;> rfl
@[simp] theorem State.dropWrite_seen (s : State) (u : UnitId) : (s.dropWrite u).seen = s.seen := by cases u <;> rfl
@[simp] theorem State.dropWrite_answers (s : State) (u : UnitId) : (s.dropWrite u).answers = s.answers := by cases u <;> rfl
@[simp] theorem State.dropWrite_turns (s : State) (u : UnitId) : (s.dropWrite u).turns = s.turns := by cases u <;> rfl
@[simp] theorem State.dropWrite_free (s : State) (u : UnitId) : (s.dropWrite u).free = s.free := by cases u <;> rfl

/-! ## raise, issue, dropWrite: the units -/

@[simp] theorem State.raise_sm3_sm3 (s : State) (c : ErrCode) : (s.raise .sm3 c).sm3 = s.sm3.finish (.error c) := rfl
@[simp] theorem State.raise_sm3_sm2 (s : State) (c : ErrCode) : (s.raise .sm3 c).sm2 = s.sm2 := rfl
@[simp] theorem State.raise_sm2_sm2 (s : State) (c : ErrCode) : (s.raise .sm2 c).sm2 = s.sm2.finish (.error c) := rfl
@[simp] theorem State.raise_sm2_sm3 (s : State) (c : ErrCode) : (s.raise .sm2 c).sm3 = s.sm3 := rfl
@[simp] theorem State.issue_sm3_sm3 (s : State) (v : Word) : (s.issue .sm3 v).sm3 = { s.sm3 with pend := v, busy := true } := rfl
@[simp] theorem State.issue_sm3_sm2 (s : State) (v : Word) : (s.issue .sm3 v).sm2 = s.sm2 := rfl
@[simp] theorem State.issue_sm2_sm2 (s : State) (v : Word) : (s.issue .sm2 v).sm2 = { s.sm2 with pend := v, busy := true } := rfl
@[simp] theorem State.issue_sm2_sm3 (s : State) (v : Word) : (s.issue .sm2 v).sm3 = s.sm3 := rfl
@[simp] theorem State.dropWrite_sm3_sm3 (s : State) : (s.dropWrite .sm3).sm3 = { s.sm3 with ovr := true } := rfl
@[simp] theorem State.dropWrite_sm3_sm2 (s : State) : (s.dropWrite .sm3).sm2 = s.sm2 := rfl
@[simp] theorem State.dropWrite_sm2_sm2 (s : State) : (s.dropWrite .sm2).sm2 = { s.sm2 with ovr := true } := rfl
@[simp] theorem State.dropWrite_sm2_sm3 (s : State) : (s.dropWrite .sm2).sm3 = s.sm3 := rfl

/-! ## What a read leaves -/

@[simp] theorem State.readReg_sm3 (s : State) (r : Reg) : (s.readReg r).sm3 = s.sm3 := by
  unfold State.readReg; split <;> rfl
@[simp] theorem State.readReg_sm2 (s : State) (r : Reg) : (s.readReg r).sm2 = s.sm2 := by
  unfold State.readReg; split <;> rfl
@[simp] theorem State.readReg_program (s : State) (r : Reg) : (s.readReg r).program = s.program := by
  unfold State.readReg; split <;> rfl
@[simp] theorem State.readReg_answers (s : State) (r : Reg) : (s.readReg r).answers = s.answers := by
  unfold State.readReg; split <;> rfl
@[simp] theorem State.readReg_turns (s : State) (r : Reg) : (s.readReg r).turns = s.turns := by
  unfold State.readReg; split <;> rfl

/-! ## Busy and pending -/

@[simp] theorem State.busy_sm3 (s : State) : s.busy .sm3 = s.sm3.busy := rfl
@[simp] theorem State.busy_sm2 (s : State) : s.busy .sm2 = s.sm2.busy := rfl
@[simp] theorem State.pend_sm3 (s : State) : s.pend .sm3 = s.sm3.pend := rfl
@[simp] theorem State.pend_sm2 (s : State) : s.pend .sm2 = s.sm2.pend := rfl

/-! ## Keys -/

@[simp] theorem Key.mode_empty : Key.empty.mode = .none := rfl
@[simp] theorem Key.mode_signing (d : Nat) (q : Pt) : (Key.signing d q).mode = .sign := rfl
@[simp] theorem Key.mode_verifying (q : Pt) : (Key.verifying q).mode = .verify := rfl
@[simp] theorem Key.q_empty : Key.empty.q = none := rfl
@[simp] theorem Key.q_signing (d : Nat) (q : Pt) : (Key.signing d q).q = some q := rfl
@[simp] theorem Key.q_verifying (q : Pt) : (Key.verifying q).q = some q := rfl

theorem Key.mode_eq_none (k : Key) : k.mode = .none ↔ k = .empty := by cases k <;> simp
theorem Key.q_eq_none (k : Key) : k.q = none ↔ k = .empty := by cases k <;> simp

end Sys2Proof.Machine
end

