-- ==== Sys2Proof/Laws/Windows.lean ====
section
/-! SUPPORT. Windows, blocks and the pending buffer: what reading gives after writing, and how many bytes there are. -/

namespace Sys2Proof.Machine

/-! ## Wide windows (20_memory.md R63) -/

/-- Bit by bit: the addressed word is `v`, every other bit is as it was. -/
theorem getLsbD_wideSet {w : Nat} (n : Nat) (x : BitVec w) (k : Nat) (v : Word) (i : Nat) (hi : i < w) :
    (wideSet n x k v).getLsbD i =
      if 32 * (n - 1 - k) ≤ i ∧ i < 32 * (n - 1 - k) + 32 then v.getLsbD (i - 32 * (n - 1 - k)) else x.getLsbD i := by
  unfold wideSet
  simp only [BitVec.getLsbD_or, BitVec.getLsbD_and, BitVec.getLsbD_not, BitVec.getLsbD_shiftLeft, BitVec.getLsbD_setWidth,
    BitVec.getLsbD_allOnes, hi, decide_true, Bool.true_and]
  by_cases h1 : i < 32 * (n - 1 - k)
  · have : ¬(32 * (n - 1 - k) ≤ i ∧ i < 32 * (n - 1 - k) + 32) := by omega
    simp [h1, this]
  · have hw : i - 32 * (n - 1 - k) < w := by omega
    by_cases h2 : i < 32 * (n - 1 - k) + 32
    · have h3 : 32 * (n - 1 - k) ≤ i ∧ i < 32 * (n - 1 - k) + 32 := by omega
      have h4 : i - 32 * (n - 1 - k) < 32 := by omega
      simp [h1, h3, h4, hw]
    · have h3 : ¬(32 * (n - 1 - k) ≤ i ∧ i < 32 * (n - 1 - k) + 32) := by omega
      have h4 : ¬ i - 32 * (n - 1 - k) < 32 := by omega
      simp [h1, h3, h4, hw, BitVec.getLsbD_of_ge v _ (Nat.le_of_not_lt h4)]

/-- The word just written reads back. -/
theorem wideWord_wideSet_same (n : Nat) (x : BitVec (32 * n)) (k : Nat) (v : Word) (hk : k < n) :
    wideWord n (wideSet n x k v) k = v := by
  unfold wideWord
  apply BitVec.eq_of_getLsbD_eq
  intro i hi
  rw [BitVec.getLsbD_extractLsb', getLsbD_wideSet _ _ _ _ _ (by omega)]
  simp [hi]

/-- Another word of the window keeps its value. -/
theorem wideWord_wideSet_ne (n : Nat) (x : BitVec (32 * n)) (k j : Nat) (v : Word) (hk : k < n) (hj : j < n) (h : j ≠ k) :
    wideWord n (wideSet n x k v) j = wideWord n x j := by
  unfold wideWord
  apply BitVec.eq_of_getLsbD_eq
  intro i hi
  rw [BitVec.getLsbD_extractLsb', BitVec.getLsbD_extractLsb', getLsbD_wideSet _ _ _ _ _ (by omega)]
  have : ¬(32 * (n - 1 - k) ≤ 32 * (n - 1 - j) + i ∧ 32 * (n - 1 - j) + i < 32 * (n - 1 - k) + 32) := by omega
  simp [this]

/-- A window is its words. -/
theorem wideWord_ext {n : Nat} {x y : BitVec (32 * n)} (h : ∀ k < n, wideWord n x k = wideWord n y k) : x = y := by
  apply BitVec.eq_of_getLsbD_eq
  intro i hi
  have hk := congrArg (fun v : Word => v.getLsbD (i % 32)) (h (n - 1 - i / 32) (by omega))
  simp only [wideWord, BitVec.getLsbD_extractLsb'] at hk
  have h1 : i % 32 < 32 := Nat.mod_lt _ (by decide)
  have h2 : 32 * (n - 1 - (n - 1 - i / 32)) + i % 32 = i := by omega
  simpa [h1, h2] using hk

/-! ## Byte windows -/

@[simp] theorem windowBytes_length (win : Vector Word 16) (nb : Nat) : (windowBytes win nb).length = nb := by
  simp [windowBytes]

@[simp] theorem windowBytes_zero (win : Vector Word 16) : windowBytes win 0 = [] := rfl

@[simp] theorem be64Bytes_length (l : BitVec 64) : (be64Bytes l).length = 8 := by simp [be64Bytes]

/-! ## The pending buffer -/

theorem getElem_bufWrite (buf : Vector Byte 64) (start : Nat) (m : List Byte) (i : Nat) (hi : i < 64) :
    (bufWrite buf start m)[i] =
      if start ≤ i ∧ i < start + m.length then m.getD (i - start) 0 else buf[i] := by
  simp [bufWrite]

/-- Bytes appended behind the first `n` of a buffer follow them. -/
theorem take_bufWrite (buf : Vector Byte 64) (n : Nat) (m : List Byte) (h : n + m.length ≤ 64) :
    (bufWrite buf n m).toList.take (n + m.length) = buf.toList.take n ++ m := by
  apply List.ext_getElem
  · simp; omega
  · intro i h1 h2
    have h3 : i < n + m.length := by simp at h1; omega
    rw [List.getElem_take, Vector.getElem_toList, getElem_bufWrite]
    by_cases hi : i < n
    · have : ¬(n ≤ i ∧ i < n + m.length) := by omega
      rw [if_neg this, List.getElem_append_left (by simp; omega), List.getElem_take, Vector.getElem_toList]
    · have h4 : n ≤ i ∧ i < n + m.length := by omega
      have h5 : (buf.toList.take n).length = n := by simp; omega
      rw [if_pos h4, List.getElem_append_right (by omega)]
      simp only [h5]
      rw [List.getD_eq_getElem?_getD, List.getElem?_eq_getElem (by omega), Option.getD_some]

/-- A full buffer as a block. -/
theorem bufWrite_eq_blockOf (buf : Vector Byte 64) (n : Nat) (m : List Byte) (h : n + m.length = 64) :
    bufWrite buf n m = blockOf (buf.toList.take n ++ m) := by
  apply Vector.ext
  intro i hi
  rw [getElem_bufWrite]
  simp only [blockOf, Vector.getElem_ofFn]
  by_cases hn : i < n
  · have : ¬(n ≤ i ∧ i < n + m.length) := by omega
    rw [if_neg this, List.getD_eq_getElem?_getD, List.getElem?_append_left (by simp; omega),
      List.getElem?_eq_getElem (by simp; omega), Option.getD_some, List.getElem_take, Vector.getElem_toList]
  · have h4 : n ≤ i ∧ i < n + m.length := by omega
    have h5 : (buf.toList.take n).length = n := by simp; omega
    rw [if_pos h4, List.getD_eq_getElem?_getD, List.getD_eq_getElem?_getD, List.getElem?_append_right (by omega), h5]

/-! ## Runs of compressions -/

theorem compressChunks_zero (v : Vector Word 8) (m : List Byte) : compressChunks 0 v m = (v, m) := rfl

theorem compressChunks_succ (n : Nat) (v : Vector Word 8) (m : List Byte) :
    compressChunks (n + 1) v m = compressChunks n (compress v (blockOf (m.take 64))) (m.drop 64) := rfl

/-- The bytes left over are those behind the chunks. -/
theorem compressChunks_snd (n : Nat) : ∀ (v : Vector Word 8) (m : List Byte),
    (compressChunks n v m).2 = m.drop (64 * n) := by
  induction n with
  | zero => intro v m; simp [compressChunks]
  | succ n ih =>
    intro v m
    rw [compressChunks_succ, ih, List.drop_drop]
    congr 1
    omega

/-- Only the bytes of the chunks matter to the chaining state. -/
theorem compressChunks_append (n : Nat) : ∀ (v : Vector Word 8) (m r : List Byte), 64 * n ≤ m.length →
    (compressChunks n v (m ++ r)).1 = (compressChunks n v m).1 := by
  induction n with
  | zero => intro v m r _; rfl
  | succ n ih =>
    intro v m r h
    rw [compressChunks_succ, compressChunks_succ, List.take_append_of_le_length (by omega),
      List.drop_append_of_le_length (by omega), ih _ _ _ (by simp; omega)]

/-- Chunks one after another. -/
theorem compressChunks_add (a b : Nat) : ∀ (v : Vector Word 8) (m : List Byte),
    compressChunks (a + b) v m = compressChunks b (compressChunks a v m).1 (m.drop (64 * a)) := by
  induction a with
  | zero => intro v m; simp [compressChunks]
  | succ a ih =>
    intro v m
    rw [Nat.succ_add, compressChunks_succ, ih, compressChunks_succ, List.drop_drop]
    congr 2
    omega

end Sys2Proof.Machine
end

