-- ==== Sys2Proof/Laws/Exec.lean ====
section
/-! SUPPORT. What the shared operations and each meaning can do, said once: later proofs cite these and do not unfold. -/

namespace Sys2Proof.Machine

/-! ## Commands -/

/-- A command of the SM3 unit gives a next state that differs in that unit and the count of free values only. -/
theorem exec_sm3_shape {i : Instr} (h : i.unit = .sm3) (s : State) :
    ∃ u n, exec i s = .next { s with sm3 := u, free := n } := by
  cases i <;> simp only [Instr.unit, reduceCtorEq] at h
  · exact ⟨_, s.free, rfl⟩
  · exact ⟨_, s.free, rfl⟩
  · simp only [exec, execSm3Finalize, State.finalizeOf]
    split
    · exact ⟨_, s.free, rfl⟩
    · exact ⟨_, _, rfl⟩

/-- A command of the SM2 unit gives a next state that differs in that unit and the answers left only. -/
theorem exec_sm2_shape {i : Instr} (h : i.unit = .sm2) (s : State) :
    ∃ u a, exec i s = .next { s with sm2 := u, answers := a } := by
  cases i <;> simp only [Instr.unit, reduceCtorEq] at h
  case sm2Sign =>
    simp only [exec, execSm2Sign, State.signOf]
    split
    · exact ⟨_, s.answers, rfl⟩
    · exact ⟨_, s.answers, rfl⟩
    · split
      · exact ⟨_, s.answers, rfl⟩
      · split
        · exact ⟨s.sm2, [], rfl⟩
        · exact ⟨_, _, rfl⟩
  all_goals exact ⟨_, s.answers, rfl⟩

/-- ABSORB's completed state, when the unit is not final. -/
theorem absorbRule_ok {nb : Nat} {u : Sm3} (hn : nb ≤ 64) (hf : u.final = false) :
    u.absorbRule nb = .ok (u.absorbBytes (windowBytes u.din nb)) := by
  unfold Sm3.absorbRule
  rw [if_neg (by omega), if_neg (by simp [hf])]

theorem absorbRule_final {nb : Nat} {u : Sm3} (hn : nb ≤ 64) (hf : u.final = true) :
    u.absorbRule nb = .error .sequence := by
  unfold Sm3.absorbRule
  rw [if_neg (by omega), if_pos hf]

theorem finalizeRule_ok {junk : Vector Byte 64} {u : Sm3} (hf : u.final = false) :
    u.finalizeRule junk = .ok { u with v := u.finalDigest, buf := junk, fill := 0, final := true } := by
  unfold Sm3.finalizeRule
  rw [if_neg (by simp [hf])]

theorem finalizeRule_final {junk : Vector Byte 64} {u : Sm3} (hf : u.final = true) :
    u.finalizeRule junk = .error .sequence := by
  unfold Sm3.finalizeRule
  rw [if_pos hf]

/-- What `absorb(bytes)` never touches. -/
theorem absorbBytes_frame (u : Sm3) (m : List Byte) :
    (u.absorbBytes m).final = u.final ∧ (u.absorbBytes m).busy = u.busy ∧ (u.absorbBytes m).err = u.err ∧
    (u.absorbBytes m).ovr = u.ovr ∧ (u.absorbBytes m).pend = u.pend ∧ (u.absorbBytes m).din = u.din := by
  unfold Sm3.absorbBytes Sm3.absorbPhase1 Sm3.absorbPhase2 Sm3.absorbPhase3
  split
  · simp
  · dsimp only
    split <;> split <;> simp_all

/-- SIGN runs the loop when a private key with an invertible `D + 1` is loaded. -/
theorem signOf_signing {c : Curve} {s : State} {d : Nat} {q : Pt} (hk : s.sm2.key = .signing d q)
    (hd : (d + 1) % c.N ≠ 0) :
    s.signOf c = match signLoop c d s.sm2.eacc s.answers with
      | none => s.withAnswers []
      | some ((r, t), rest) =>
        (s.withAnswers rest).withSm2 (s.sm2.finish
          (.ok { s.sm2 with rs0 := BitVec.ofNat 512 r, rs1 := BitVec.ofNat 512 t, eacc := 0 })) := by
  unfold State.signOf
  rw [hk]
  exact if_neg hd

/-- A rejected answer is lost; the loop goes on with the next (42_sm2_signer.md R181). -/
theorem signLoop_cons_none {c : Curve} {d e k : Nat} {rest : List Nat} (h : signPass c d e k = none) :
    signLoop c d e (k :: rest) = signLoop c d e rest := by
  simp only [signLoop, h]

/-- The first accepted answer ends the loop. -/
theorem signLoop_cons_some {c : Curve} {d e k : Nat} {rest : List Nat} {rs : Nat × Nat} (h : signPass c d e k = some rs) :
    signLoop c d e (k :: rest) = some (rs, rest) := by
  simp only [signLoop, h]

/-- The loop either rejects every answer or splits the answers at the first accepted one. -/
theorem signLoop_cases (c : Curve) (d e : Nat) (a : List Nat) :
    (signLoop c d e a = none ∧ ∀ k ∈ a, signPass c d e k = none) ∨
    ∃ pre k post rs, a = pre ++ k :: post ∧ (∀ x ∈ pre, signPass c d e x = none) ∧ signPass c d e k = some rs ∧
      signLoop c d e a = some (rs, post) := by
  induction a with
  | nil => left; simp [signLoop]
  | cons k rest ih =>
    cases hk : signPass c d e k with
    | some rs => exact .inr ⟨[], k, rest, rs, rfl, by simp, hk, signLoop_cons_some hk⟩
    | none =>
      rw [signLoop_cons_none hk]
      rcases ih with ⟨h1, h2⟩ | ⟨pre, k', post, rs, rfl, h2, h3, h4⟩
      · exact .inl ⟨h1, by simpa [hk] using h2⟩
      · exact .inr ⟨k :: pre, k', post, rs, rfl, by simpa [hk] using h2, h3, h4⟩

/-- What an accepted pass of the loop gives. -/
theorem signPass_some {c : Curve} {d e k r t : Nat} (h : signPass c d e k = some (r, t)) :
    k ≠ 0 ∧ k < c.N ∧ r = (e + c.ecX (c.ecMul k c.G)) % c.N ∧ r ≠ 0 ∧
    t = invMod c.N (d + 1) * subMod c.N k (r * d) % c.N ∧ t ≠ 0 := by
  unfold signPass at h
  split at h
  · cases h
  · dsimp only at h
    split at h
    · cases h
    · split at h
      · cases h
      · rename_i h1 h2 h3
        cases h
        exact ⟨by omega, by omega, rfl, h2, rfl, h3⟩

/-! ## Turns -/

/-- A completion step, case by case (30_encoding.md R98). -/
theorem completeUnit_cases {u : UnitId} {s t : State} (h : completeUnit u s = .next t) :
    (s.busy u = false ∧ t = s) ∨
    (s.busy u = true ∧ ∃ e, decode u (s.pend u) = .error e ∧ t = s.raise u .illegalCmd) ∨
    (s.busy u = true ∧ ∃ i, decode u (s.pend u) = .ok i ∧ exec i s = .next t) := by
  unfold completeUnit at h
  split at h
  · rename_i hb
    split at h
    · rename_i i hi
      exact .inr (.inr ⟨hb, i, hi, h⟩)
    · rename_i e he
      exact .inr (.inl ⟨hb, e, he, by cases h; rfl⟩)
  · rename_i hb
    exact .inl ⟨by simpa using hb, by cases h; rfl⟩

/-- An access that reaches a register is 32 bits wide and at that register's place. -/
theorem accessReg_ok {width : Nat} {offset : BitVec 12} {r : Reg} (h : accessReg width offset = .ok r) :
    width = 32 ∧ offset.toNat % 4 = 0 ∧ Reg.at? offset.toNat = some r := by
  unfold accessReg at h
  split at h
  · cases h
  · split at h
    · cases h
    · rename_i h1 h2
      split at h
      · cases h
      · rename_i r' hr
        cases h
        exact ⟨by simpa using h1, by simpa using h2, hr⟩

/-- A write, case by case (20_memory.md R66; 30_encoding.md R98; 70_reset_and_hazards.md R264). -/
theorem writeReg_cases {s t : State} {r : Reg} {v : Word} (h : s.writeReg r v = .next t) :
    (r.access = .rw ∧ s.busy r.unit = true ∧ t = s.dropWrite r.unit) ∨
    (r.access = .rw ∧ s.busy r.unit = false ∧ t = s.setReg r v) ∨
    (r.access = .wo ∧ v = resetWord ∧ exec (resetCommand r.unit) s = .next t) ∨
    (r.access = .wo ∧ v ≠ resetWord ∧ s.busy r.unit = true ∧ t = s.dropWrite r.unit) ∨
    (r.access = .wo ∧ v ≠ resetWord ∧ s.busy r.unit = false ∧ t = s.issue r.unit v) := by
  unfold State.writeReg at h
  split at h
  · rename_i ha
    split at h
    · rename_i hb
      cases h; exact .inl ⟨ha, hb, rfl⟩
    · rename_i hb
      cases h; exact .inr (.inl ⟨ha, by simpa using hb, rfl⟩)
  · rename_i ha
    unfold cmdWrite at h
    split at h
    · rename_i hv
      exact .inr (.inr (.inl ⟨ha, hv, h⟩))
    · rename_i hv
      split at h
      · rename_i hb
        cases h; exact .inr (.inr (.inr (.inl ⟨ha, hv, hb, rfl⟩)))
      · rename_i hb
        cases h; exact .inr (.inr (.inr (.inr ⟨ha, hv, by simpa using hb, rfl⟩)))
  · cases h

/-- The host's turn, case by case: nothing left, a read or a POLL, or a write. -/
theorem hostTurn_cases {s t : State} (h : hostTurn s = .next t) :
    (s.program = [] ∧ t = s) ∨
    (∃ r p, t = (s.withProgram p).readReg r) ∨
    (∃ width offset v rest r, s.program = .write width offset v :: rest ∧ accessReg width offset = .ok r ∧
      (s.withProgram rest).writeReg r v = .next t) := by
  unfold hostTurn at h
  split at h
  · rename_i hp
    cases h; exact .inl ⟨hp, rfl⟩
  · rename_i width offset rest hp
    unfold busRead at h
    split at h
    · cases h
    · rename_i r hr
      cases h; exact .inr (.inl ⟨r, rest, rfl⟩)
  · rename_i width offset v rest hp
    unfold busWrite at h
    split at h
    · cases h
    · rename_i r hr
      exact .inr (.inr ⟨width, offset, v, rest, r, hp, hr, h⟩)
  · rename_i u rest hp
    split at h
    · cases h; exact .inr (.inl ⟨statusReg u, s.program, rfl⟩)
    · cases h; exact .inr (.inl ⟨statusReg u, rest, rfl⟩)

/-- A step is some agent's turn, from a state that differs in the turns to come or the count of free values only. -/
theorem step_cases (s : State) :
    (∃ a rest, s.turns = a :: rest ∧ step s = takeTurn a (s.withTurns rest)) ∨
    (s.turns = [] ∧ step s = takeTurn (Config.turn s.free) s.tick) := by
  unfold step
  split
  · rename_i a rest h
    exact .inl ⟨a, rest, h, rfl⟩
  · rename_i h
    exact .inr ⟨h, rfl⟩

end Sys2Proof.Machine
end

