-- ==== Sys2Proof/Laws/Registers.lean ====
section
/-! SUPPORT. The register map: every register is found at its own place, and nothing else is found. -/

namespace Sys2Proof.Machine

theorem Reg.offset_lt (r : Reg) : r.offset < 4096 := by
  cases r <;> simp only [Reg.offset] <;> omega

theorem Reg.offset_mod_four (r : Reg) : r.offset % 4 = 0 := by
  cases r <;> simp only [Reg.offset] <;> omega

/-- Each register is found at its own offset. -/
theorem Reg.at?_offset (r : Reg) : Reg.at? r.offset = some r := by
  cases r
  case sm3Cmd => rfl
  case sm3Status => rfl
  case sm3Fill => rfl
  case sm3CntLo => rfl
  case sm3CntHi => rfl
  case sm2Cmd => rfl
  case sm2Status => rfl
  case sm2Nbits => rfl
  all_goals (rename_i k; revert k; decide)

/-- The register found at each of the 1024 words of the space stands there. -/
theorem Reg.at?_checked :
    ((List.range 1024).all fun n => match Reg.at? (4 * n) with
      | some r => r.offset == 4 * n
      | none => true) = true := by decide +kernel

/-- Nothing is found behind the space. -/
theorem Reg.at?_outside {a : Nat} (h : 4096 ≤ a) : Reg.at? a = none := by
  unfold Reg.at?
  repeat rw [if_neg (by omega)]

/-- A register that is found stands at the offset it was looked for, if that is a multiple of 4. -/
theorem Reg.at?_some {a : Nat} {r : Reg} (h : Reg.at? a = some r) (ha : a % 4 = 0) : r.offset = a := by
  by_cases h4 : 4096 ≤ a
  · rw [Reg.at?_outside h4] at h; cases h
  · have hc := (List.all_eq_true.mp Reg.at?_checked) (a / 4) (List.mem_range.mpr (by omega))
    rw [show 4 * (a / 4) = a by omega, h] at hc
    simpa using hc

/-- An access at a register's own offset, 32 bits wide, reaches it. -/
theorem accessReg_offset (r : Reg) : accessReg 32 (BitVec.ofNat 12 r.offset) = .ok r := by
  have h : (BitVec.ofNat 12 r.offset).toNat = r.offset := by
    rw [BitVec.toNat_ofNat]; exact Nat.mod_eq_of_lt r.offset_lt
  unfold accessReg
  rw [h, if_neg (by decide), if_neg (by simp [r.offset_mod_four]), r.at?_offset]

end Sys2Proof.Machine
end

