-- ==== Sys2Proof/Laws/HostProgram.lean ====
section
/-! SUPPORT. When a host program uses a unit, and when it has ended (70_reset_and_hazards.md R274). -/

namespace Sys2Proof.Machine

@[simp] theorem usesUnit_nil (u : UnitId) : usesUnit [] u = false := rfl

theorem usesUnit_cons (st : Stmt) (p : List Stmt) (u : UnitId) :
    usesUnit (st :: p) u = (decide (st.unit = u) || usesUnit p u) := rfl

theorem usesUnit_append (p q : List Stmt) (u : UnitId) : usesUnit (p ++ q) u = (usesUnit p u || usesUnit q u) := by
  simp [usesUnit]

/-- The half of the register space a register lies in is its unit's (20_memory.md R73). -/
theorem offset_lt_iff (r : Reg) : r.offset < 0x800 ↔ r.unit = .sm3 := by
  cases r <;> simp only [Reg.offset, Reg.unit, reduceCtorEq, iff_true, iff_false] <;> omega

theorem offsetUnit_offset (r : Reg) : offsetUnit (BitVec.ofNat 12 r.offset) = r.unit := by
  have h : (BitVec.ofNat 12 r.offset).toNat = r.offset := by
    rw [BitVec.toNat_ofNat]; exact Nat.mod_eq_of_lt r.offset_lt
  have hi := offset_lt_iff r
  unfold offsetUnit
  rw [h]
  by_cases hl : r.offset < 0x800
  · rw [if_pos hl, hi.1 hl]
  · rw [if_neg hl]
    cases hu : r.unit
    · exact absurd (hi.2 hu) hl
    · rfl

/-- The end of a program asks `BUSY = 0` of the units it used and of no other. -/
theorem ended_iff (program : List Stmt) (s : State) :
    s.Ended program ↔ s.program = [] ∧ (usesUnit program .sm3 = true → s.sm3.busy = false) ∧
      (usesUnit program .sm2 = true → s.sm2.busy = false) := by
  unfold State.Ended
  refine and_congr_right fun _ => ⟨fun h => ⟨h .sm3, h .sm2⟩, fun h u => ?_⟩
  cases u
  · exact h.1
  · exact h.2

/-- The host of an ended program does nothing more. -/
theorem hostTurn_of_ended {program : List Stmt} {s : State} (h : s.Ended program) : hostTurn s = .next s := by
  unfold hostTurn
  rw [h.1]

end Sys2Proof.Machine
end

