-- ==== Sys2Proof/Laws/PerInstr.lean ====
section
/-! SUPPORT. Facts said of every command as syntax, one lemma per constructor. -/

namespace Sys2Proof.Laws

/-- The encoded word's fields are the command's: `RSV = 0`, its opcode, its count (30_encoding.md R90). -/
def EncodeFields.Statement (i : Instr) : Prop :=
  i.wf = true → fieldRsv (encode i) = 0 ∧ fieldOp (encode i) = i.opcode ∧ fieldNb (encode i) = i.count

theorem EncodeFields.of_count (i : Instr) (h : i.wf = true → i.count < 128) : EncodeFields.Statement i := by
  intro hw
  have hc := h hw
  refine ⟨?_, ?_, ?_⟩
  · unfold fieldRsv encode
    apply BitVec.eq_of_getLsbD_eq
    intro j hj
    simp only [BitVec.getLsbD_extractLsb', BitVec.getLsbD_append]
    have h1 : ¬ 15 + j < 8 := by omega
    have h2 : ¬ 15 + j - 8 < 7 := by omega
    simp [h1, h2]
  · unfold fieldOp encode
    apply BitVec.eq_of_getLsbD_eq
    intro j hj
    simp only [BitVec.getLsbD_extractLsb', BitVec.getLsbD_append]
    simp [hj]
  · unfold fieldNb encode
    have : ((0#17 ++ BitVec.ofNat 7 i.count ++ i.opcode : BitVec (17 + 7 + 8)).extractLsb' 8 7) = BitVec.ofNat 7 i.count := by
      apply BitVec.eq_of_getLsbD_eq
      intro j hj
      simp only [BitVec.getLsbD_extractLsb', BitVec.getLsbD_append]
      have h1 : ¬ 8 + j < 8 := by omega
      simp [hj]
    exact (congrArg BitVec.toNat this).trans (by rw [BitVec.toNat_ofNat]; exact Nat.mod_eq_of_lt hc)

theorem EncodeFields.sm3Reset : EncodeFields.Statement .sm3Reset := of_count _ (fun _ => by decide)
theorem EncodeFields.sm3Absorb (nb : Nat) : EncodeFields.Statement (.sm3Absorb nb) :=
  of_count _ (fun h => by simp only [Instr.wf, decide_eq_true_eq] at h; simp only [Instr.count]; omega)
theorem EncodeFields.sm3Finalize : EncodeFields.Statement .sm3Finalize := of_count _ (fun _ => by decide)
theorem EncodeFields.sm2Reset : EncodeFields.Statement .sm2Reset := of_count _ (fun _ => by decide)
theorem EncodeFields.sm2LoadPriv : EncodeFields.Statement .sm2LoadPriv := of_count _ (fun _ => by decide)
theorem EncodeFields.sm2LoadPub : EncodeFields.Statement .sm2LoadPub := of_count _ (fun _ => by decide)
theorem EncodeFields.sm2MsgClear : EncodeFields.Statement .sm2MsgClear := of_count _ (fun _ => by decide)
theorem EncodeFields.sm2MsgAbsorb (nb : Nat) : EncodeFields.Statement (.sm2MsgAbsorb nb) :=
  of_count _ (fun h => by simp only [Instr.wf, decide_eq_true_eq] at h; simp only [Instr.count]; omega)
theorem EncodeFields.sm2Sign : EncodeFields.Statement .sm2Sign := of_count _ (fun _ => by decide)
theorem EncodeFields.sm2Verify : EncodeFields.Statement .sm2Verify := of_count _ (fun _ => by decide)
theorem EncodeFields.sm2Muladd : EncodeFields.Statement .sm2Muladd := of_count _ (fun _ => by decide)

end Sys2Proof.Laws
end

