-- ==== Sys2Proof/Laws/Sm2.lean ====
section
/-! SUPPORT. The signing loop's passes, and that the operations of a lawful capability stay among its points. -/

namespace Sys2Proof.Machine

/-! ## One pass of the signing loop -/

/-- `s` is 0 exactly when `k = r * d (mod N)` (42_sm2_signer.md R182). -/
theorem sign_s_zero_iff {n d k x : Nat} (hp : n.Prime) (hd : (d + 1) % n ≠ 0) :
    invMod n (d + 1) * subMod n k x % n = 0 ↔ k % n = x % n := by
  have hpos := hp.pos
  have hadd := subMod_add k x hpos
  have hinv := invMod_spec hp hd
  have hlt := subMod_lt k x hpos
  constructor
  · intro h
    have hdvd := (Nat.Prime.dvd_mul hp).1 (Nat.dvd_of_mod_eq_zero h)
    rcases hdvd with h1 | h1
    · have h0 : (d + 1) * invMod n (d + 1) % n = 0 := Nat.mod_eq_zero_of_dvd (Dvd.dvd.mul_left h1 _)
      omega
    · have h0 : subMod n k x = 0 := Nat.eq_zero_of_dvd_of_lt h1 hlt
      rw [h0, Nat.zero_add] at hadd
      exact hadd.symm
  · intro h
    have h0 : n ∣ subMod n k x := by
      have h1 : (subMod n k x + x) % n = (0 + x) % n := by rw [hadd, h, Nat.zero_add]
      exact Nat.dvd_of_mod_eq_zero (Nat.ModEq.add_right_cancel' x h1)
    exact Nat.mod_eq_zero_of_dvd (Dvd.dvd.mul_left h0 _)

/-- The signature of a pass satisfies the signing equation (42_sm2_signer.md R182). -/
theorem sign_equation {n d k x : Nat} (hp : n.Prime) (hd : (d + 1) % n ≠ 0) :
    (invMod n (d + 1) * subMod n k x % n * (d + 1) + x) % n = k % n := by
  have hadd := subMod_add k x hp.pos
  have hinv : (d + 1) * invMod n (d + 1) ≡ 1 [MOD n] := by
    have h1 := invMod_spec hp hd
    unfold Nat.ModEq
    rw [h1, Nat.mod_eq_of_lt hp.one_lt]
  have h1 : invMod n (d + 1) * subMod n k x % n * (d + 1) ≡ subMod n k x [MOD n] := by
    calc invMod n (d + 1) * subMod n k x % n * (d + 1)
        ≡ invMod n (d + 1) * subMod n k x * (d + 1) [MOD n] := Nat.ModEq.mul_right _ (Nat.mod_modEq _ _)
      _ = (d + 1) * invMod n (d + 1) * subMod n k x := by ring
      _ ≡ 1 * subMod n k x [MOD n] := Nat.ModEq.mul_right _ hinv
      _ = subMod n k x := Nat.one_mul _
  exact (Nat.ModEq.add_right x h1).trans hadd

/-- A pass fails exactly on an answer that is not acceptable. -/
theorem signPass_none_iff {c : Curve} {d e k : Nat} (hp : c.N.Prime) (hd : (d + 1) % c.N ≠ 0) :
    signPass c d e k = none ↔ ¬ Acceptable c d e k := by
  unfold signPass Acceptable
  split
  · simp only [true_iff]; omega
  · rename_i hk
    dsimp only
    split
    · rename_i hr
      simp [hr]
    · rename_i hr
      split
      · rename_i hs
        have := (sign_s_zero_iff hp hd).1 hs
        simp [this]
      · rename_i hs
        have := fun h => hs ((sign_s_zero_iff (x := (e + c.ecX (c.ecMul k c.G)) % c.N * d) hp hd).2 h)
        simp only [reduceCtorEq, false_iff, not_not]
        exact ⟨by omega, by omega, hr, this⟩

/-- What a pass gives is the signature for its answer, in range (42_sm2_signer.md R182, R184). -/
theorem signPass_signature {c : Curve} {d e k r t : Nat} (hp : c.N.Prime) (hd : (d + 1) % c.N ≠ 0)
    (h : signPass c d e k = some (r, t)) :
    IsSignature c d e k r t ∧ 1 ≤ r ∧ r < c.N ∧ 1 ≤ t ∧ t < c.N := by
  obtain ⟨_, _, hr, hr0, ht, ht0⟩ := signPass_some h
  have h1 : r < c.N := by rw [hr]; exact Nat.mod_lt _ hp.pos
  have h2 : t < c.N := by rw [ht]; exact Nat.mod_lt _ hp.pos
  refine ⟨⟨hr, h2, ?_⟩, by omega, h1, by omega, h2⟩
  rw [ht]
  exact sign_equation hp hd

/-! ## Points -/

/-- `N` fits in a scalar window (42_sm2_signer.md R171). -/
theorem order_lt_of_lawful {c : Curve} (hl : c.Lawful) : c.N < 2 ^ 511 := lt_two_pow_of_bitlen_le hl.nbits_le

/-- A number below `2^511` keeps its value in a scalar window. -/
theorem toNat_ofNat_scalar {r : Nat} (h : r < 2 ^ 511) : (BitVec.ofNat 512 r).toNat = r := by
  rw [BitVec.toNat_ofNat]
  exact Nat.mod_eq_of_lt (Nat.lt_trans h (Nat.pow_lt_pow_right (Nat.lt_succ_self 1) (Nat.lt_succ_self 511)))

/-- A residue modulo `N` keeps its value in a scalar window. -/
theorem toNat_ofNat_of_lt_order {c : Curve} (hl : c.Lawful) {r : Nat} (h : r < c.N) : (BitVec.ofNat 512 r).toNat = r :=
  toNat_ofNat_scalar (Nat.lt_trans h (order_lt_of_lawful hl))

theorem shamirLoop_point {c : Curve} (hl : c.Lawful) {k l : Nat} {P Q Z : Pt} (hP : c.IsPoint P) (hQ : c.IsPoint Q)
    (hZ : c.IsPoint Z) (i : Nat) : ∀ R, c.IsPoint R → c.IsPoint (shamirLoop c k l P Q Z i R) := by
  induction i with
  | zero => intro R h; exact h
  | succ i ih =>
    intro R h
    refine ih _ ?_
    have h2 := hl.dbl_point R h
    unfold shamirPass
    dsimp only
    split
    · exact h2
    · split
      · exact hl.add_point _ _ h2 hP
      · split
        · exact hl.add_point _ _ h2 hQ
        · exact hl.add_point _ _ h2 hZ

/-- The routine's result is a point. -/
theorem shamir_point {c : Curve} (hl : c.Lawful) (k l : Nat) {P Q : Pt} (hP : c.IsPoint P) (hQ : c.IsPoint Q) :
    c.IsPoint (shamir c k P l Q) :=
  shamirLoop_point hl hP hQ (hl.add_point _ _ hP hQ) _ _ hl.inf_point

end Sys2Proof.Machine
end

