-- ==== Sys2Proof/Laws/Sm3.lean ====
section
/-! SUPPORT. What absorbing and finalizing do to the SM3 unit, said once (40_sm3_digest.md R112, R114, R115). -/

namespace Sys2Proof.Machine

/-! ## The byte counter -/

theorem Sm3.cnt_toNat (u : Sm3) : u.cnt.toNat = u.cntHi.toNat * 2 ^ 32 + u.cntLo.toNat := by
  unfold Sm3.cnt
  rw [BitVec.toNat_append, ← Nat.shiftLeft_add_eq_or_of_lt u.cntLo.isLt, Nat.shiftLeft_eq]

/-- The carry into the high half makes the two halves one 64-bit counter (40_sm3_digest.md R114). -/
theorem Sm3.countBytes_cnt (u : Sm3) (n : Nat) : (u.countBytes n).cnt = u.cnt + BitVec.ofNat 64 n := by
  apply BitVec.eq_of_toNat_eq
  rw [Sm3.cnt_toNat, BitVec.toNat_add, Sm3.cnt_toNat, BitVec.toNat_ofNat]
  simp only [Sm3.countBytes, BitVec.toNat_ofNat, Nat.shiftRight_eq_div_pow]
  have := u.cntLo.isLt
  have := u.cntHi.isLt
  omega

/-! ## Absorbing -/

@[simp] theorem Sm3.absorbPhase3_cnt (u : Sm3) (m : List Byte) : (u.absorbPhase3 m).cnt = u.cnt := by
  simp only [Sm3.cnt, Sm3.absorbPhase3]

/-- The bytes pending, as a list of `FILL` bytes. -/
theorem Sm3.pendingBytes_length {u : Sm3} (h : u.fill ≤ 64) : u.pendingBytes.length = u.fill := by
  simp [Sm3.pendingBytes]; omega

/-- A non-empty input goes through the count and the three phases in order. -/
theorem Sm3.absorbBytes_phases {u : Sm3} {m : List Byte} (h : ¬ m.length = 0) :
    u.absorbBytes m =
      (((u.countBytes m.length).absorbPhase1 m).1.absorbPhase2 ((u.countBytes m.length).absorbPhase1 m).2).1.absorbPhase3
        (((u.countBytes m.length).absorbPhase1 m).1.absorbPhase2 ((u.countBytes m.length).absorbPhase1 m).2).2 := by
  unfold Sm3.absorbBytes
  rw [if_neg h]

/-- Everything `absorb(bytes)` does with at most 64 bytes (40_sm3_digest.md R112). -/
theorem Sm3.absorbBytes_spec {u : Sm3} {m : List Byte} (hf : u.fill ≤ 63) (hm : m.length ≤ 64) :
    (u.absorbBytes m).cnt = u.cnt + BitVec.ofNat 64 m.length ∧
    (u.fill + m.length < 64 →
      (u.absorbBytes m).fill = u.fill + m.length ∧ (u.absorbBytes m).v = u.v ∧
      (u.absorbBytes m).pendingBytes = u.pendingBytes ++ m) ∧
    (64 ≤ u.fill + m.length →
      (u.absorbBytes m).fill = u.fill + m.length - 64 ∧
      (u.absorbBytes m).v = compress u.v (blockOf ((u.pendingBytes ++ m).take 64)) ∧
      (u.absorbBytes m).pendingBytes = (u.pendingBytes ++ m).drop 64) := by
  have hpl : u.pendingBytes.length = u.fill := Sm3.pendingBytes_length (by omega)
  by_cases h0 : m.length = 0
  · have : m = [] := List.length_eq_zero_iff.mp h0
    subst this
    rw [show u.absorbBytes [] = u from rfl]
    refine ⟨by simp, fun _ => ⟨by simp, rfl, by simp⟩, fun h => ?_⟩
    simp at h; omega
  rw [Sm3.absorbBytes_phases h0]
  have hcv : (u.countBytes m.length).v = u.v := rfl
  have hcb : (u.countBytes m.length).buf = u.buf := rfl
  have hcf : (u.countBytes m.length).fill = u.fill := rfl
  by_cases hp : 0 < u.fill ∧ 64 ≤ u.fill + m.length
  · have e1 : (u.countBytes m.length).absorbPhase1 m =
        ({ u.countBytes m.length with
            buf := bufWrite u.buf u.fill (m.take (64 - u.fill))
            v := compress u.v (bufWrite u.buf u.fill (m.take (64 - u.fill))), fill := 0 }, m.drop (64 - u.fill)) := by
      unfold Sm3.absorbPhase1
      rw [hcf, hcb, hcv, if_pos hp]
    rw [e1]
    have hlen : (m.drop (64 - u.fill)).length / 64 = 0 := by simp; omega
    have e2 : ∀ w : Sm3, w.fill = 0 → w.absorbPhase2 (m.drop (64 - u.fill)) = (w, m.drop (64 - u.fill)) := by
      intro w hw
      unfold Sm3.absorbPhase2
      rw [if_pos hw, hlen]
      rfl
    dsimp only
    rw [e2 _ rfl]
    dsimp only
    refine ⟨(Sm3.absorbPhase3_cnt _ _).trans (u.countBytes_cnt m.length), fun h => by omega, fun _ => ⟨?_, ?_, ?_⟩⟩
    · simp [Sm3.absorbPhase3]; omega
    · show compress u.v _ = _
      rw [bufWrite_eq_blockOf _ _ _ (by simp; omega)]
      congr 2
      rw [List.take_append, hpl, List.take_of_length_le (l := u.pendingBytes) (by omega)]
      rfl
    · show ((bufWrite _ 0 (m.drop (64 - u.fill))).toList.take (0 + (m.drop (64 - u.fill)).length)) = _
      rw [take_bufWrite _ 0 _ (by simp; omega), List.drop_append, hpl, List.drop_eq_nil_of_le (as := u.pendingBytes) (by omega)]
      simp
  · have e1 : (u.countBytes m.length).absorbPhase1 m = (u.countBytes m.length, m) := by
      unfold Sm3.absorbPhase1
      rw [hcf, if_neg hp]
    rw [e1]
    dsimp only
    by_cases hz : u.fill = 0
    · have e2 : (u.countBytes m.length).absorbPhase2 m =
          ({ u.countBytes m.length with v := (compressChunks (m.length / 64) u.v m).1 },
            (compressChunks (m.length / 64) u.v m).2) := by
        unfold Sm3.absorbPhase2
        rw [if_pos (show (u.countBytes m.length).fill = 0 from hz)]
        rfl
      rw [e2]
      dsimp only
      rw [compressChunks_snd]
      have hpn : u.pendingBytes = [] := List.length_eq_zero_iff.mp (by omega)
      refine ⟨(Sm3.absorbPhase3_cnt _ _).trans (u.countBytes_cnt m.length), fun h => ?_, fun h => ?_⟩
      · have hd : m.length / 64 = 0 := by omega
        rw [hd, hpn]
        refine ⟨?_, rfl, ?_⟩
        · simp [Sm3.absorbPhase3]
        · show ((bufWrite _ u.fill (m.drop (64 * 0))).toList.take (u.fill + (m.drop (64 * 0)).length)) = _
          rw [take_bufWrite _ _ _ (by simp; omega), hz]
          simp
      · have hd : m.length = 64 := by omega
        have hd' : m.length / 64 = 1 := by omega
        rw [hd', hpn]
        refine ⟨?_, rfl, ?_⟩
        · simp [Sm3.absorbPhase3]; omega
        · show ((bufWrite _ u.fill (m.drop (64 * 1))).toList.take (u.fill + (m.drop (64 * 1)).length)) = _
          rw [take_bufWrite _ _ _ (by simp; omega), hz]
          simp
    · have e2 : (u.countBytes m.length).absorbPhase2 m = (u.countBytes m.length, m) := by
        unfold Sm3.absorbPhase2
        rw [hcf, if_neg hz]
      rw [e2]
      dsimp only
      refine ⟨(Sm3.absorbPhase3_cnt _ _).trans (u.countBytes_cnt m.length), fun h => ⟨rfl, rfl, ?_⟩, fun h => by omega⟩
      show ((bufWrite u.buf u.fill m).toList.take (u.fill + m.length)) = _
      rw [take_bufWrite _ _ _ (by omega)]
      rfl

/-! ## Finalizing -/

/-- The length field is eight times the counter (40_sm3_digest.md R115). -/
theorem Sm3.bitLength_eq (u : Sm3) : u.bitLength = 8 * u.cnt := by
  apply BitVec.eq_of_toNat_eq
  unfold Sm3.bitLength
  have h29 : (u.cntHi <<< 3 ||| u.cntLo >>> 29).toNat = u.cntHi.toNat * 8 % 2 ^ 32 + u.cntLo.toNat / 2 ^ 29 := by
    rw [BitVec.toNat_or, BitVec.toNat_shiftLeft, BitVec.toNat_ushiftRight, Nat.shiftLeft_eq, Nat.shiftRight_eq_div_pow]
    have hlt := u.cntLo.isLt
    have h8 : u.cntHi.toNat * 2 ^ 3 % 2 ^ 32 = (u.cntHi.toNat % 2 ^ 29) <<< 3 := by rw [Nat.shiftLeft_eq]; omega
    rw [h8, ← Nat.shiftLeft_add_eq_or_of_lt (by omega), Nat.shiftLeft_eq]
    omega
  rw [BitVec.toNat_append, ← Nat.shiftLeft_add_eq_or_of_lt (BitVec.isLt _), Nat.shiftLeft_eq, h29, BitVec.toNat_shiftLeft,
    Nat.shiftLeft_eq, BitVec.toNat_mul, Sm3.cnt_toNat]
  have := u.cntLo.isLt
  have := u.cntHi.isLt
  have h8 : BitVec.toNat (8 : BitVec 64) = 8 := rfl
  rw [h8]
  omega

/-- The digest, with room for the length in the last block. -/
theorem Sm3.finalDigest_short {u : Sm3} (h : u.fill ≤ 55) :
    u.finalDigest = compress u.v (blockOf
      (u.pendingBytes ++ [0x80] ++ List.replicate (55 - u.fill) 0 ++ be64Bytes (8 * u.cnt))) := by
  unfold Sm3.finalDigest Sm3.padFirst
  rw [if_neg (by omega), u.bitLength_eq]
  have : 56 - (u.pendingBytes ++ [(0x80 : Byte)]).length = 55 - u.fill := by
    rw [List.length_append, Sm3.pendingBytes_length (by omega)]; simp
  dsimp only
  rw [this]

/-- The digest, with one block for the padding alone. -/
theorem Sm3.finalDigest_long {u : Sm3} (h : 56 ≤ u.fill) :
    u.finalDigest = compress
      (compress u.v (blockOf (u.pendingBytes ++ [0x80] ++ List.replicate (63 - u.fill) 0)))
      (blockOf (List.replicate 56 0 ++ be64Bytes (8 * u.cnt))) := by
  unfold Sm3.finalDigest Sm3.padFirst
  rw [if_pos h, u.bitLength_eq]
  rfl

end Sys2Proof.Machine
end

