-- ==== Sys2Proof/Tests/Slice0.lean ====
section
/-! SUPPORT. Tests. Expected values are those of 95_test_vectors.md, named by their number there, or are read off the rule
named. One step or one function each. -/

namespace Sys2Proof.Tests

set_option Elab.async false

open Sys2Proof.Machine

/-! ## Well-formedness (30_encoding.md R91) -/

theorem test_wf_rejects_absorb_65 : (Instr.sm3Absorb 65).wf = false := by decide

theorem test_wf_rejects_msg_absorb_65 : (Instr.sm2MsgAbsorb 65).wf = false := by decide

theorem test_wf_accepts_64 : (Instr.sm3Absorb 64).wf = true ∧ (Instr.sm2MsgAbsorb 64).wf = true := by decide

/-! ## Decoding: each word bit by bit, `RSV` (17 bits), `NB` (7 bits), `OP` (8 bits) (30_encoding.md R90, R93, R94) -/

theorem test_decode_sm3Reset : decode .sm3 0b00000000000000000000000000000001 = .ok .sm3Reset := by decide
theorem test_decode_sm3Absorb : decode .sm3 0b00000000000000000100000000000010 = .ok (.sm3Absorb 64) := by decide
theorem test_decode_sm3Absorb_odd : decode .sm3 0b00000000000000000010101000000010 = .ok (.sm3Absorb 42) := by decide
theorem test_decode_sm3Finalize : decode .sm3 0b00000000000000000000000000000011 = .ok .sm3Finalize := by decide
theorem test_decode_sm2Reset : decode .sm2 0b00000000000000000000000000000001 = .ok .sm2Reset := by decide
theorem test_decode_sm2LoadPriv : decode .sm2 0b00000000000000000000000000010000 = .ok .sm2LoadPriv := by decide
theorem test_decode_sm2LoadPub : decode .sm2 0b00000000000000000000000000010001 = .ok .sm2LoadPub := by decide
theorem test_decode_sm2MsgClear : decode .sm2 0b00000000000000000000000000100000 = .ok .sm2MsgClear := by decide
theorem test_decode_sm2MsgAbsorb : decode .sm2 0b00000000000000000000001100100001 = .ok (.sm2MsgAbsorb 3) := by decide
theorem test_decode_sm2Sign : decode .sm2 0b00000000000000000000000000110000 = .ok .sm2Sign := by decide
theorem test_decode_sm2Verify : decode .sm2 0b00000000000000000000000000110001 = .ok .sm2Verify := by decide
theorem test_decode_sm2Muladd : decode .sm2 0b00000000000000000000000001000000 = .ok .sm2Muladd := by decide

/-- Section 5, and A12 to A15: what is no command. -/
theorem test_decode_rejects :
    decode .sm3 0x00004102 = .error .countTooLarge ∧ decode .sm3 0x00000103 = .error .countNotTaken ∧
    decode .sm3 0x00008003 = .error .reservedBits ∧ decode .sm3 0x00000000 = .error .unassignedOpcode ∧
    decode .sm3 0x00000004 = .error .unassignedOpcode ∧ decode .sm3 0x00000010 = .error .unassignedOpcode ∧
    decode .sm2 0x00000002 = .error .unassignedOpcode ∧ decode .sm2 0x00000041 = .error .unassignedOpcode ∧
    decode .sm2 0x00004121 = .error .countTooLarge ∧ decode .sm2 0x00000101 = .error .countNotTaken := by decide

theorem test_table_words :
    decodeTableWord 32 0x00000302 = some (.sm3Absorb 3) ∧ decodeTableWord 32 0x00000030 = some .sm2Sign ∧
    decodeTableWord 32 0x00008003 = none := by decide

/-! ## Words and the compression function (section 1.5, 1.4) -/

theorem test_permutations :
    p0 0x12345678 = 0xD6688234 ∧ p1 0x12345678 = 0x05014549 ∧ p1 0x80000000 = 0x80404000 ∧ rotl 0x80000001 1 = 0x00000003 := by
  decide

theorem test_round_constants :
    roundConst 0 = 0x79CC4519 ∧ roundConst 1 = 0xF3988A32 ∧ roundConst 15 = 0x228CBCE6 ∧ roundConst 16 = 0x9D8A7A87 ∧
    roundConst 31 = 0x3D43CEC5 ∧ roundConst 32 = 0x7A879D8A ∧ roundConst 63 = 0x3D43CEC5 := by decide

theorem test_boolean_functions :
    ff 15 0xFFFF0000 0xFF00FF00 0xF0F0F0F0 = 0xF00F0FF0 ∧ gg 15 0xFFFF0000 0xFF00FF00 0xF0F0F0F0 = 0xF00F0FF0 ∧
    ff 16 0xFFFF0000 0xFF00FF00 0xF0F0F0F0 = 0xFFF0F000 ∧ gg 16 0xFFFF0000 0xFF00FF00 0xF0F0F0F0 = 0xFF00F0F0 := by decide

/-- The padded block of "abc" (section 1.3). -/
def abcBlock : Vector Byte 64 := blockOf ([0x61, 0x62, 0x63, 0x80] ++ List.replicate 59 0 ++ [0x18])

theorem test_expansion_of_abc :
    (expand abcBlock).getD 16 0 = 0x9092E200 ∧ (expand abcBlock).getD 67 0 = 0xB99C0545 ∧
    auxWord (expand abcBlock) 63 = 0x49E260D5 := by decide +kernel

/-- The registers after rounds 0 and 15 (section 1.4). -/
theorem test_rounds_of_abc :
    rounds (expand abcBlock) 1 (Regs.ofV Config.iv) =
      ⟨0xB9EDC12B, 0x7380166F, 0x29657292, 0x172442D7, 0xB2AD29F4, 0xA96F30BC, 0xC550B189, 0xE38DEE4D⟩ ∧
    rounds (expand abcBlock) 17 (Regs.ofV Config.iv) =
      ⟨0x796AFAB1, 0x34D1691E, 0xA52EF0F8, 0x92B57849, 0x067550F5, 0x61F99646, 0xC999F74A, 0x2AA0D251⟩ := by decide +kernel

theorem test_compress_zero_block :
    compress Config.iv (Vector.replicate 64 0) =
      #v[0xA1203A40, 0x4A5566CD, 0x536FCEE8, 0x20DF7E13, 0x35C58F56, 0xB7C4C62E, 0x813C32CC, 0x47BF9B6C] := by decide +kernel

/-! ## The SM3 unit's commands (section 1.6) -/

/-- What a step gave, looked at with `f`. -/
def after {α : Type} (f : State → α) : Host.Outcome State Fault Refusal → Option α
  | .next t => some (f t)
  | .fault _ => none
  | .refused _ => none

/-- The machine after reset with another SM3 unit. -/
def sm3State (u : Sm3) : State := State.reset.withSm3 u

/-- "abc" in the window, as A1 writes it. -/
def abcWindow : Vector Word 16 := (Vector.replicate 16 0).set 0 0x61626300

/-- The unit with "abc" pending. -/
def abcPending : Sm3 := { Sm3.reset with buf := bufWrite (Vector.replicate 64 0) 0 [0x61, 0x62, 0x63], fill := 3, cntLo := 3 }

/-- A11. -/
theorem test_sm3Reset :
    after (fun t => (t.sm3.v, t.sm3.final, t.sm3.cnt, t.sm3.status)) (exec .sm3Reset
      (sm3State { Sm3.reset with final := true, cntLo := 3, v := Vector.replicate 8 0, err := .sequence, ovr := true })) =
      some (Config.iv, false, 0, 0) := by decide +kernel

/-- A1. -/
theorem test_sm3Absorb_abc :
    after (fun t => (t.sm3.pendingBytes, t.sm3.fill, t.sm3.cnt, t.sm3.v, t.sm3.status))
      (exec (.sm3Absorb 3) (sm3State { Sm3.reset with din := abcWindow })) =
      some ([0x61, 0x62, 0x63], 3, 3, Config.iv, 0) := by decide +kernel

/-- A6, and A4's second ABSORB: 60 bytes pending and 10 more leave 6. -/
theorem test_sm3Absorb_carry :
    after (fun t => (t.sm3.cntHi, t.sm3.cntLo, t.sm3.fill)) (exec (.sm3Absorb 3)
      (sm3State { Sm3.reset with cntLo := 0xFFFFFFFE, fill := 62 })) =
      some (0x00000001, 0x00000001, 1) ∧
    after (fun t => (t.sm3.fill, t.sm3.cnt)) (exec (.sm3Absorb 10) (sm3State { Sm3.reset with cntLo := 60, fill := 60 })) =
      some (6, 70) := by decide +kernel

/-- A2. -/
theorem test_sm3Finalize_abc :
    after (fun t => (t.sm3.v, t.sm3.fill, t.sm3.cnt, t.sm3.status)) (exec .sm3Finalize (sm3State abcPending)) =
      some (#v[0x66C7F0F4, 0x62EEEDD9, 0xD1F2D46B, 0xDC10E4E2, 0x4167C487, 0x5CF2F7A2, 0x297DA02B, 0x8F4BA8E0],
        0, 3, 0x00000002) := by decide +kernel

/-- A16: two compressions, row `L = 56` of section 1.3. -/
theorem test_sm3Finalize_56 :
    after (fun t => t.sm3.v) (exec .sm3Finalize
      (sm3State { Sm3.reset with buf := Vector.replicate 64 0x61, fill := 56, cntLo := 56 })) =
      some #v[0xBA00EBED, 0xAAB54065, 0xA5FD4F9F, 0x56326016, 0x203166BC, 0xEE3EED44, 0xEA868D59, 0xD67AA3C8] := by
  decide +kernel

/-- A8: the sequence rule. -/
theorem test_sm3_sequence :
    after (fun t => t.sm3.status) (exec (.sm3Absorb 1) (sm3State { Sm3.reset with final := true })) = some 0x00000202 ∧
    after (fun t => t.sm3.status) (exec .sm3Finalize (sm3State { Sm3.reset with final := true })) = some 0x00000202 := by
  decide +kernel

/-! ## The test curve (92_eei_decisions.md D25) -/

/-- The name of the affine point `(x, y)`. -/
def toyPt (x y : Nat) : Pt := ⟨1 + 1024 * x + y⟩

/-- The coordinates a name stands for; none for `INF`. -/
def toyXY (P : Pt) : Option (Nat × Nat) := if P.id = 0 then none else some ((P.id - 1) / 1024, (P.id - 1) % 1024)

/-- The chord-and-tangent sum with slope `n / m` on `y^2 = x^3 + x + 1` over F_727. -/
def toySlope (n m x1 y1 x2 : Nat) : Pt :=
  let l := n * (m % 727) ^ 725 % 727
  let x3 := (l * l + 2 * 727 - x1 - x2) % 727
  toyPt x3 ((l * (x1 + 727 - x3) + 727 - y1) % 727)

/-- The group law of the test curve. -/
def toyAdd (P Q : Pt) : Pt :=
  match toyXY P, toyXY Q with
  | none, _ => Q
  | _, none => P
  | some (x1, y1), some (x2, y2) =>
    if x1 ≠ x2 then toySlope (y2 + 727 - y1) (x2 + 727 - x1) x1 y1 x2
    else if (y1 + y2) % 727 = 0 then ⟨0⟩
    else toySlope (3 * x1 * x1 + 1) (2 * y1) x1 y1 x2

/-- The multiple of a point, by doubling. -/
def toyMul : Nat → Nat → Pt → Pt
  | 0, _, _ => ⟨0⟩
  | n + 1, k, P =>
    if k = 0 then ⟨0⟩
    else
      let R := toyMul n (k / 2) (toyAdd P P)
      if k % 2 = 1 then toyAdd R P else R

/-- `TOY` with the encoding `AFFINE` (92_eei_decisions.md D25). -/
def toy : Curve where
  inf := ⟨0⟩
  G := toyPt 5 191
  N := 691
  ecAdd := toyAdd
  ecDbl P := toyAdd P P
  ecMul k P := toyMul 600 k P
  ecX P := ((toyXY P).map Prod.fst).getD 0
  ecEq P Q := decide (P = Q)
  ptEnc P := match toyXY P with
    | none => 1 <<< 1023
    | some (x, y) => (BitVec.ofNat 512 x ++ BitVec.ofNat 512 y : BitVec (512 + 512))
  ptDec v :=
    let x := (v.extractLsb' 512 512).toNat
    let y := (v.extractLsb' 0 512).toNat
    if v = 1 <<< 1023 then some ⟨0⟩
    else if x < 727 ∧ y < 727 ∧ y * y % 727 = (x * x * x + x + 1) % 727 then some (toyPt x y)
    else none

/-- A point window holding two coordinates. -/
def affine (x y : Nat) : BitVec 1024 := (BitVec.ofNat 512 x ++ BitVec.ofNat 512 y : BitVec (512 + 512))

/-- "A few useful multiples of `G`" (95_test_vectors.md, head). -/
theorem test_toy_multiples :
    toy.ecMul 2 toy.G = toyPt 334 383 ∧ toy.ecMul 7 toy.G = toyPt 702 156 ∧ toy.ecMul 123 toy.G = toyPt 345 637 ∧
    toy.ecMul 300 toy.G = toyPt 258 330 ∧ toy.ecMul 691 toy.G = toy.inf := by decide +kernel

/-! ## Simultaneous multiplication (section 3) -/

/-- M1, M6, M7. -/
theorem test_shamir :
    shamir toy 5 toy.G 3 (toyPt 702 156) = toyPt 153 23 ∧ shamir toy 2 toy.G 2 (toyPt 5 536) = toy.inf ∧
    shamir toy 3 toy.G 5 toy.G = toyPt 607 76 := by decide +kernel

set_option maxRecDepth 100000 in
/-- M8: scalars are not reduced first. -/
theorem test_shamir_all_ones : shamir toy (BitVec.allOnes 512).toNat toy.G 0 (toyPt 702 156) = toyPt 527 479 := by
  decide +kernel

/-! ## The SM2 unit's commands over the test curve (section 2) -/

/-- The unit after a command's rule. -/
def ends (u : Sm2) (rule : Sm2 → Except ErrCode Sm2) : Sm2 := u.finish (rule u)

/-- The unit with the private key 7 and the message "abc". -/
def signer : Sm2 := { Sm2.reset with key := .signing 7 (toyPt 702 156), eacc := 103, busy := true }

/-- Section 2.5 after a reset, and P6's end: `OP0` is kept. -/
theorem test_sm2Reset :
    after (fun t => (t.sm2.status, t.sm2.op0, t.sm2.key, t.sm2.eacc))
      (exec .sm2Reset (State.reset.withSm2 { signer with op0 := 7, ovr := true })) = some (0, 7, .empty, 0) := by decide +kernel

/-- K1, K5. -/
theorem test_sm2LoadPriv :
    (ends { Sm2.reset with op0 := 7 } (Sm2.loadPrivRule toy)).key = .signing 7 (toyPt 702 156) ∧
    (ends { Sm2.reset with op0 := 7 } (Sm2.loadPrivRule toy)).status = 0x00000010 ∧
    (ends { Sm2.reset with op0 := 690 } (Sm2.loadPrivRule toy)).d = 690 := by decide +kernel

/-- K3, K4, K6. -/
theorem test_sm2LoadPriv_errors :
    (ends { Sm2.reset with op0 := 0 } (Sm2.loadPrivRule toy)).status = 0x00000400 ∧
    (ends { Sm2.reset with op0 := 691 } (Sm2.loadPrivRule toy)).status = 0x00000400 ∧
    (ends { signer with op0 := 5 } (Sm2.loadPrivRule toy)).status = 0x00000210 := by decide +kernel

/-- K7, K8. -/
theorem test_sm2LoadPub :
    (ends { Sm2.reset with pt0 := affine 702 156 } (Sm2.loadPubRule toy)).q = some (toyPt 702 156) ∧
    (ends { Sm2.reset with pt0 := affine 702 156 } (Sm2.loadPubRule toy)).status = 0x00000020 ∧
    (ends { Sm2.reset with pt0 := affine 702 157 } (Sm2.loadPubRule toy)).status = 0x00000600 := by decide +kernel

/-- K12. -/
theorem test_sm2MsgClear : after (fun t => t.sm2.eacc) (exec .sm2MsgClear (State.reset.withSm2 signer)) = some 0 := by
  decide +kernel

/-- K9, K10. -/
theorem test_sm2MsgAbsorb :
    (ends { Sm2.reset with msg := abcWindow } (Sm2.msgAbsorbRule toy 3)).eacc = 103 ∧
    foldMessage 691 0 [0x00, 0x00, 0x61, 0x62, 0x63] = 103 ∧
    foldMessage 691 0 ((List.range 100).map fun i => BitVec.ofNat 8 i) = 87 := by decide +kernel

/-- What SIGN leaves on the test curve. -/
def signs (u : Sm2) (answers : List Nat) : Nat × Nat × Nat × Bool × List Nat :=
  let t := ((State.reset.withSm2 u).withAnswers answers).signOf toy
  (t.sm2.rs0.toNat, t.sm2.rs1.toNat, t.sm2.eacc, t.sm2.busy, t.answers)

/-- G1 to G3, with one answer left over in G1. -/
theorem test_sm2Sign :
    signs signer [0, 1000, 123, 9] = (448, 228, 0, false, [9]) ∧
    signs { signer with eacc := 206 } [5, 200] = (4, 367, 0, false, []) ∧
    signs { signer with key := .signing 376 (toyPt 82 333) } [300, 123] = (448, 305, 0, false, []) := by decide +kernel

/-- G6 draws nothing; G8 never completes. -/
theorem test_sm2Sign_no_signature :
    signs { signer with key := .signing 690 (toyPt 5 536) } [5] = (0, 0, 103, false, [5]) ∧
    signs signer [0, 691, 1023] = (0, 0, 103, true, []) := by decide +kernel

/-- V1, V9, V10, V4 and V2 ("abd" is `EACC = 104`), with the key of `signer` (V12). -/
theorem test_sm2Verify :
    (ends { signer with op0 := 448, op1 := 228 } (Sm2.verifyRule toy)).status = 0x00000018 ∧
    (ends { signer with op0 := 448, op1 := 691 } (Sm2.verifyRule toy)).valid = false ∧
    (ends { signer with op0 := 691, op1 := 228 } (Sm2.verifyRule toy)).valid = false ∧
    (ends { signer with op0 := 10, op1 := 164 } (Sm2.verifyRule toy)).valid = false ∧
    (ends { signer with op0 := 448, op1 := 228, eacc := 104 } (Sm2.verifyRule toy)).valid = false := by decide +kernel

/-- Section 2.4, and V11. -/
theorem test_sm2Verify_range :
    (ends { signer with op0 := 0, op1 := 228, valid := true } (Sm2.verifyRule toy)).status = 0x00000010 ∧
    (ends { signer with op0 := 448, op1 := 692, valid := true } (Sm2.verifyRule toy)).status = 0x00000010 ∧
    (ends Sm2.reset (Sm2.verifyRule toy)).status = 0x00000300 := by decide +kernel

/-- X1, X3. -/
theorem test_sm2Muladd :
    (ends { Sm2.reset with op0 := 5, op1 := 3, pt0 := affine 5 191, pt1 := affine 702 156 } (Sm2.muladdRule toy)).rpt =
      affine 153 23 ∧
    (ends { Sm2.reset with pt0 := affine 5 191, pt1 := affine 702 156 } (Sm2.muladdRule toy)).rpt = 1 <<< 1023 := by
  decide +kernel

/-- X2. -/
theorem test_sm2Muladd_bad_point :
    (ends { Sm2.reset with pt0 := affine 5 191, pt1 := affine 702 157, rpt := 9 } (Sm2.muladdRule toy)).status = 0x00000600 ∧
    (ends { Sm2.reset with pt0 := affine 5 191, pt1 := affine 702 157, rpt := 9 } (Sm2.muladdRule toy)).rpt = 9 := by
  decide +kernel

/-! ## The bus (program P4, P6; 10_state.md section 4) -/

/-- The reason an access stops with, if it does. -/
def faultOf : Host.Outcome State Fault Refusal → Option Fault
  | .next _ => none
  | .fault f => some f
  | .refused _ => none

/-- P4 steps 11 to 15. -/
theorem test_bus_errors :
    faultOf (busRead 32 0x014 State.reset) = some .busReserved ∧ faultOf (busRead 32 0x041 State.reset) = some .busMisaligned ∧
    faultOf (busWrite 8 0x040 0xAB State.reset) = some .busWidth ∧
    faultOf (busWrite 32 0x080 0 State.reset) = some .busReadOnly ∧
    after (fun t => t.seen) (busRead 32 0x000 State.reset) = some [0] := by decide +kernel

/-- P6 steps 3 to 5: the dropped write, and the status word that shows it. -/
theorem test_dropped_write :
    after (fun t => (t.sm2.status, t.sm2.msg)) (busWrite 32 0x8C0 0x12345678 (State.reset.withSm2 signer)) =
      some (0x00000015, Vector.replicate 16 0) := by decide +kernel

/-- P5 step 2: the window words at 0x93C and 0x97C hold 5 and 191. -/
theorem test_window_offsets :
    after (fun t => t.sm2.pt0) (busWrite 32 0x93C 5 State.reset) = some (affine 5 0) ∧
    after (fun t => t.sm2.pt0) (busWrite 32 0x97C 191 State.reset) = some (affine 0 191) ∧
    after (fun t => t.sm2.op0) (busWrite 32 0x87C 7 State.reset) = some 7 := by decide +kernel

/-! ## Steps -/

/-- P1 steps 3 and 4: the word is issued by one turn and completed by another. -/
theorem test_step_completes_absorb :
    after (fun t => (t.sm3.fill, t.sm3.cnt, t.sm3.busy, t.turns)) (step (State.reset.withFetchWord 32 0x00000302)) =
      some (3, 3, false, []) := by decide +kernel

theorem test_step_reset_word :
    after (fun t => (t.sm3.ovr, t.program)) (step ((sm3State { Sm3.reset with ovr := true, busy := true }).withFetchWord 32 1)) =
      some (false, []) := by decide +kernel

/-- P4 step 2: an illegal word completes with `ILLEGAL_CMD`. -/
theorem test_step_illegal_word :
    after (fun t => t.sm3.status) (step (State.reset.withFetchWord 32 0x00004102)) = some 0x00000100 := by decide +kernel

/-- A host's turn performs one statement; a POLL stays while the unit is busy. -/
theorem test_step_poll :
    after (fun t => (t.program, t.seen)) (step
      (((sm3State { Sm3.reset with busy := true }).withProgram [.poll .sm3]).withTurns [.host])) =
      some ([.poll .sm3], [0x00000001]) := by decide +kernel

/-- `sm3.hash` of three bytes is the accesses of P1, the reads of FILL and CNT apart (30_encoding.md R100). -/
theorem test_hash_statements :
    (hashStmts [0x61, 0x62, 0x63]).take 6 =
      [.write 32 0x000 0x00000001, .write 32 0x040 0x61626300, .write 32 0x000 0x00000302, .poll .sm3,
        .write 32 0x000 0x00000003, .poll .sm3] := by decide +kernel

/-- R274: with the SM2 unit busy, a program that used SM3 alone has ended, and one that polled SM2 has not. -/
theorem test_ended_by_used_units :
    (State.reset.withSm2 signer).Ended (hashStmts [0x61]) ∧
    ¬ (State.reset.withSm2 signer).Ended (hashStmts [0x61] ++ [.poll .sm2]) := by
  constructor
  · exact (ended_iff _ _).2 ⟨rfl, fun _ => rfl, fun h => absurd h (by decide +kernel)⟩
  · intro h
    exact absurd (((ended_iff _ _).1 h).2.2 (by decide +kernel)) (by decide)

/-! ## Witnesses: states and operands that meet the hypotheses of each statement -/

/-- The machine after reset with another SM2 unit. -/
def sm2State (u : Sm2) : State := State.reset.withSm2 u

theorem witness_DecoderAcceptsExactlyLegalWords :
    (sm3State { Sm3.reset with busy := true, pend := 0x00004102 }).sm3.busy = true ∧ legal .sm3 0x00004102 = false ∧
    (sm2State { Sm2.reset with busy := true, pend := 0x00000130 }).sm2.busy = true ∧ legal .sm2 0x00000130 = false ∧
    fieldRsv 0x80000000 ≠ 0 ∧ fieldRsv 0x00008000 ≠ 0 ∧ legal .sm3 0x00004002 = true ∧ legal .sm2 0x00000040 = true := by decide

theorem witness_DecodeOfEncodeIsSame : (Instr.sm3Absorb 0).wf = true ∧ (Instr.sm2MsgAbsorb 64).wf = true := by decide

theorem witness_EncodeOfDecodeIsSame : decode .sm2 0x00004021 = .ok (.sm2MsgAbsorb 64) := by decide

/-- The ends of the four reserved ranges, and the registers beside them. -/
theorem witness_ReservedOffsetsAreBusErrors :
    ([0x014, 0x03C, 0x0A0, 0x7FC, 0x80C, 0x83C, 0xB80, 0xFFC].all fun a => Reg.at? a == none) = true ∧
    ([0x010, 0x040, 0x09C, 0x800, 0x808, 0x840, 0xB7C].all fun a => (Reg.at? a).isSome) = true ∧
    (0xFFC : BitVec 12).toNat % 4 = 0 ∧ ∀ r : Reg, r.offset ≠ (0xFFC : BitVec 12).toNat := by
  refine ⟨by decide, by decide, by decide, fun r h => ?_⟩
  have h1 := r.at?_offset
  rw [h, show Reg.at? (0xFFC : BitVec 12).toNat = none by decide] at h1
  cases h1

theorem witness_BusErrorsAreExactlyThese :
    (16 ≠ 32) ∧ (0x041 : BitVec 12).toNat % 4 ≠ 0 ∧ Reg.sm3Status.offset = (0x004 : BitVec 12).toNat ∧
    Reg.sm3Status.access = .ro ∧ (Reg.sm2Q 31).offset = (0xB7C : BitVec 12).toNat ∧ (Reg.sm2Q 31).access = .ro := by decide

theorem witness_ReadsLeaveTheEngine :
    Reg.sm3Status.isResult = false ∧ (Reg.sm2Q 0).isResult = true ∧ State.reset.busy (Reg.sm2Q 0).unit = false := by decide

theorem witness_RegistersShowTheirState :
    (sm3State { Sm3.reset with fill := 63 }).sm3.fill ≤ 63 ∧ (sm2State signer).sm2.q = some (toyPt 702 156) ∧
    State.reset.sm2.mode = .none := by decide +kernel

theorem witness_RegisterWriteReadsBack : (Reg.sm2Pt1 31).access = .rw ∧ State.reset.busy (Reg.sm2Pt1 31).unit = false := by decide

/-- Both clauses, on each unit. -/
theorem witness_BusyUnitDropsWrites :
    (sm2State signer).busy (Reg.sm2Msg 0).unit = true ∧ (Reg.sm2Msg 0).access = .rw ∧
    (sm3State { Sm3.reset with busy := true }).busy Reg.sm3Cmd.unit = true ∧ Reg.sm3Cmd.access = .wo ∧
    (0x00000003 : Word) ≠ 0x00000001 := by decide +kernel

/-- A step with both bits set: a host with nothing to do. -/
theorem witness_OverrunStaysUntilReset :
    ∃ s t : State, step s = .next t ∧ s.sm3.ovr = true ∧ s.sm2.ovr = true :=
  ⟨(((State.reset.withSm3 { Sm3.reset with ovr := true }).withSm2 { Sm2.reset with ovr := true }).withTurns [.host]),
    _, rfl, rfl, rfl⟩

theorem witness_CommandIsIssued :
    (0x00000302 : Word) ≠ 0x00000001 ∧ State.reset.sm3.busy = false ∧ State.reset.sm2.busy = false := by decide

/-- Both clauses: an ABSORB in flight, and a RESET word about to be written. -/
theorem witness_StepRunsDecodedCommand :
    (∃ s : State, s.turns = [unitAgent .sm3] ∧ s.busy .sm3 = true ∧ decode .sm3 (s.pend .sm3) = .ok (.sm3Absorb 3)) ∧
    (∃ s : State, s.turns = [.host] ∧ s.program = [.write 32 (cmdOffset .sm2) 0x00000001]) :=
  ⟨⟨(sm3State { Sm3.reset with busy := true, pend := 0x00000302 }).withTurns [.sm3], rfl, rfl, by decide⟩,
    ⟨(State.reset.withTurns [.host]).withProgram [.write 32 0x800 0x00000001], rfl, rfl⟩⟩

theorem witness_PlacedCommandRuns : Instr.sm2Reset.wf = true ∧ Instr.sm2Sign.wf = true := by decide

theorem witness_ByteWindowsAreBigEndian : (0 : Nat) ≤ 64 ∧ (64 : Nat) ≤ 64 := by decide

/-- Both clauses where they meet: 63 bytes and 64. -/
theorem witness_AbsorbBuffersOrCompresses :
    abcPending.final = false ∧ abcPending.fill ≤ 63 ∧ (60 ≤ 64 ∧ abcPending.fill + 60 < 64) ∧
    (61 ≤ 64 ∧ 64 ≤ abcPending.fill + 61) := by decide +kernel

/-- The example of R114. -/
theorem witness_ByteCounterCarries :
    (3 ≤ 64) ∧ (sm3State { Sm3.reset with cntLo := 0xFFFFFFFE }).sm3.final = false ∧
    (sm3State { Sm3.reset with cntLo := 0xFFFFFFFE }).sm3.cntHi = 0x00000000 ∧
    (sm3State { Sm3.reset with cntLo := 0xFFFFFFFE }).sm3.cntLo = 0xFFFFFFFE := by decide

/-- Both clauses where they meet. -/
theorem witness_FinalizePadsAndCloses :
    (sm3State { Sm3.reset with fill := 55 }).sm3.final = false ∧ (sm3State { Sm3.reset with fill := 55 }).sm3.fill ≤ 55 ∧
    56 ≤ (sm3State { Sm3.reset with fill := 56 }).sm3.fill ∧ (sm3State { Sm3.reset with fill := 56 }).sm3.fill ≤ 63 := by decide

theorem witness_SequenceRuleAfterFinalize :
    ∃ s t : State, s.sm3.final = true ∧ (0 ≤ 64) ∧ step s = .next t :=
  ⟨(sm3State { Sm3.reset with final := true }).withTurns [.sm3], _, rfl, by decide, rfl⟩

theorem witness_ExpansionFollowsRecurrence : (16 ≤ 16 ∧ 16 ≤ 67) ∧ (16 ≤ 67 ∧ 67 ≤ 67) := by decide

/-- "abc" in one piece, and in two pieces of 1 and 2 bytes from a window loaded anew. -/
theorem witness_DigestDoesNotDependOnSplit :
    (∀ p ∈ [(abcWindow, 3)], p.2 ≤ 64) ∧
    (∀ p ∈ [(abcWindow, 1), ((Vector.replicate 16 0).set 0 0x62630000, 2)], p.2 ≤ 64) ∧
    messageOf [(abcWindow, 3)] = messageOf [(abcWindow, 1), ((Vector.replicate 16 0).set 0 0x62630000, 2)] := by
  refine ⟨by simp, by simp, by decide +kernel⟩

theorem witness_DigestIsFoldOverPaddedMessage : ∀ p ∈ [(abcWindow, 64), (abcWindow, 0)], p.2 ≤ 64 := by simp

/-! ### The configured capability: what is known of it -/

theorem curve_two_lt : 2 < Config.curve.N := Config.curve_lawful.order_odd

theorem curve_order_toNat : (BitVec.ofNat 512 Config.curve.N).toNat = Config.curve.N :=
  toNat_ofNat_scalar (order_lt_of_lawful Config.curve_lawful)

theorem witness_LoadPrivLoadsKey :
    (sm2State { Sm2.reset with op0 := 1 }).sm2.mode = .none ∧ 0 < (sm2State { Sm2.reset with op0 := 1 }).sm2.op0.toNat ∧
    (sm2State { Sm2.reset with op0 := 1 }).sm2.op0.toNat < Config.curve.N := by
  have h1 : (sm2State { Sm2.reset with op0 := 1 }).sm2.op0.toNat = 1 := by decide +kernel
  rw [h1]
  exact ⟨rfl, by decide, Nat.lt_trans (by decide) curve_two_lt⟩

theorem witness_LoadPubLoadsPoint :
    ∃ (s : State) (q : Pt), s.sm2.mode = .none ∧ Config.curve.ptDec s.sm2.pt0 = some q :=
  ⟨sm2State { Sm2.reset with pt0 := Config.curve.ptEnc Config.curve.G }, Config.curve.G, rfl,
    Config.curve_lawful.base_point⟩

theorem witness_MsgAbsorbIsBigEndian : 64 ≤ 64 ∧ State.reset.sm2.eacc < Config.curve.N :=
  ⟨by decide, Config.curve_lawful.order_prime.pos⟩

theorem witness_AccumulatorGivesSameResults : 0 < toy.N := by decide

/-- A message residue for which the nonce 2 gives `r = 1`. -/
def goodEacc : Nat :=
  ((Config.curve.N - 1) * Config.curve.ecX (Config.curve.ecMul 2 Config.curve.G) + 1) % Config.curve.N

/-- A signing state: the key 1, and the answers 0 and 2. -/
def signState : State :=
  (sm2State { Sm2.reset with key := .signing 1 (Config.curve.ecMul 1 Config.curve.G), eacc := goodEacc, busy := true }).withAnswers
    [0, 2]

theorem goodEacc_r :
    (goodEacc + Config.curve.ecX (Config.curve.ecMul 2 Config.curve.G)) % Config.curve.N = 1 := by
  have h2 := curve_two_lt
  unfold goodEacc
  rw [Nat.mod_add_mod]
  generalize Config.curve.ecX (Config.curve.ecMul 2 Config.curve.G) = x
  have h1 : (Config.curve.N - 1) * x + 1 + x = 1 + Config.curve.N * x := by
    obtain ⟨m, hm⟩ : ∃ m, Config.curve.N = m + 1 := ⟨Config.curve.N - 1, by omega⟩
    rw [hm, Nat.add_sub_cancel]; ring
  rw [h1, Nat.add_mul_mod_self_left]
  exact Nat.mod_eq_of_lt (by omega)

theorem not_acceptable_zero (d e : Nat) : ¬ Acceptable Config.curve d e 0 := fun h => Nat.lt_irrefl 0 h.1

theorem two_acceptable : Acceptable Config.curve 1 goodEacc 2 := by
  have h2 := curve_two_lt
  refine ⟨by decide, h2, ?_, ?_⟩
  · rw [goodEacc_r]; decide
  · rw [goodEacc_r, Nat.mod_eq_of_lt h2, Nat.mul_one, Nat.mod_eq_of_lt (by omega)]; decide

theorem one_invertible : (1 + 1) % Config.curve.N ≠ 0 := by
  rw [Nat.mod_eq_of_lt curve_two_lt]; decide

theorem witness_SignWritesSignature :
    ∃ (s : State) (d : Nat) (q : Pt) (pre post : List Nat) (k : Nat),
      s.sm2.key = .signing d q ∧ (d + 1) % Config.curve.N ≠ 0 ∧ s.answers = pre ++ k :: post ∧
      (∀ x ∈ pre, ¬ Acceptable Config.curve d s.sm2.eacc x) ∧ Acceptable Config.curve d s.sm2.eacc k :=
  ⟨signState, 1, _, [0], [], 2, rfl, one_invertible, rfl,
    fun x hx => by rw [List.mem_singleton.mp hx]; exact not_acceptable_zero _ _, two_acceptable⟩

theorem witness_SignWaitsForNonce :
    ∃ (s : State) (d : Nat) (q : Pt), s.sm2.key = .signing d q ∧ (d + 1) % Config.curve.N ≠ 0 ∧
      s.answers ≠ [] ∧ ∀ x ∈ s.answers, ¬ Acceptable Config.curve d s.sm2.eacc x :=
  ⟨signState.withAnswers [0], 1, _, rfl, one_invertible, by decide,
    fun x hx => by rw [List.mem_singleton.mp hx]; exact not_acceptable_zero _ _⟩

theorem witness_SignatureIsInRange :
    ∃ s t : State, exec .sm2Sign s = .next t ∧ s.sm2.busy = true ∧ t.sm2.busy = false ∧ t.sm2.err = .ok := by
  have hp := Config.curve_lawful.order_prime
  have h0 := (signPass_none_iff hp one_invertible).2 (not_acceptable_zero 1 goodEacc)
  cases h2 : signPass Config.curve 1 goodEacc 2 with
  | none => exact absurd two_acceptable ((signPass_none_iff hp one_invertible).1 h2)
  | some rs =>
    have hl : signLoop Config.curve 1 signState.sm2.eacc signState.answers = some (rs, []) :=
      (signLoop_cons_none h0).trans (signLoop_cons_some h2)
    refine ⟨signState, (signState.withAnswers []).withSm2 (signState.sm2.finish
      (.ok { signState.sm2 with rs0 := BitVec.ofNat 512 rs.1, rs1 := BitVec.ofNat 512 rs.2, eacc := 0 })), ?_, rfl, rfl, rfl⟩
    simp only [exec, execSm2Sign]
    rw [signOf_signing (show signState.sm2.key = _ from rfl) one_invertible, hl]

theorem witness_SignTouchesNothingElse :
    (Key.signing 1 ⟨9⟩).mode = signState.sm2.mode ∧ (Key.signing 1 ⟨9⟩).d = signState.sm2.d ∧
    (Key.verifying ⟨9⟩).mode = (sm2State { Sm2.reset with key := .verifying ⟨0⟩ }).sm2.mode := ⟨rfl, rfl, rfl⟩

theorem witness_VerifyDecidesValid :
    ∃ (s : State) (q : Pt), s.sm2.q = some q ∧ Config.curve.IsPoint q :=
  ⟨sm2State { Sm2.reset with key := .verifying Config.curve.G }, _, rfl, Config.curve_lawful.base_point⟩

/-- The four ways out of range. -/
theorem witness_VerifyRangeRejection :
    signer.q = some (toyPt 702 156) ∧
    ({ signer with op0 := 0 } : Sm2).op0.toNat < 1 ∧ ({ signer with op1 := 0 } : Sm2).op1.toNat < 1 ∧
    toy.N < ({ signer with op0 := 692 } : Sm2).op0.toNat ∧ toy.N < ({ signer with op1 := 692 } : Sm2).op1.toNat := by
  decide +kernel

/-! ### A lawful group: the residues modulo 7 -/

theorem residues_lawful : (residueCurve 7).Lawful := residueLawful.lawful

theorem residues_group : (residueCurve 7).IsGroup := by
  have pt := residueCurve_isPoint 7 (by norm_num)
  refine ⟨?_, ?_, ?_, ?_, ?_, ?_⟩
  · intro P Q R hP hQ hR; simp only [residueCurve, Pt.mk.injEq]; omega
  · intro P Q hP hQ; simp only [residueCurve, Pt.mk.injEq]; omega
  · intro P hP
    exact ⟨⟨(7 - P.id) % 7⟩, (pt _).2 (Nat.mod_lt _ (by decide)), by
      have := (pt P).1 hP
      simp only [residueCurve, Pt.mk.injEq]; omega⟩
  · intro P hP; rfl
  · intro P hP; simp only [residueCurve, Nat.zero_mul, Nat.zero_mod]
  · intro k P hP
    simp only [residueCurve, Nat.succ_mul, Nat.mod_add_mod]

/-- Both clauses, `r = 1` and `r = N`. -/
theorem witness_VerifyAtTheOrder :
    (residueCurve 7).Lawful ∧ (residueCurve 7).IsGroup ∧ (residueCurve 7).IsPoint ⟨3⟩ ∧
    (1 ≤ 1 ∧ 1 ≤ (residueCurve 7).N) ∧ (1 ≤ 7 ∧ 7 ≤ (residueCurve 7).N) :=
  ⟨residues_lawful, residues_group, (residueCurve_isPoint 7 (by norm_num) _).2 (by decide), by decide, by decide⟩

/-- `1·G + 6·G = INF` among the residues. -/
theorem witness_VerifyRejectsInfinity :
    (residueCurve 7).Lawful ∧ ({ Sm2.reset with key := .verifying ⟨1⟩, op0 := 5, op1 := 1 } : Sm2).q = some ⟨1⟩ ∧
    shamir (residueCurve 7) 1 (residueCurve 7).G ((5 + 1) % (residueCurve 7).N) ⟨1⟩ = (residueCurve 7).inf :=
  ⟨residues_lawful, rfl, by decide⟩

/-- A completed SIGN among the residues: the key 1, the message residue 1, the nonce 2. -/
def residueSigner : State :=
  (sm2State { Sm2.reset with key := .signing 1 ⟨1⟩, eacc := 1, busy := true }).withAnswers [2]

theorem witness_SignedMessageVerifies :
    (residueCurve 7).Lawful ∧ (residueCurve 7).IsGroup ∧
    residueSigner.sm2.key = .signing 1 ((residueCurve 7).ecMul 1 (residueCurve 7).G) ∧ 0 < 1 ∧ 1 < (residueCurve 7).N ∧
    residueSigner.sm2.busy = true ∧ (residueSigner.signOf (residueCurve 7)).sm2.busy = false ∧
    (residueSigner.signOf (residueCurve 7)).sm2.err = .ok :=
  ⟨residues_lawful, residues_group, by decide, by decide, by decide, by decide, by decide +kernel, by decide +kernel⟩

theorem witness_ShamirComputesSum :
    (residueCurve 7).Lawful ∧ (residueCurve 7).IsGroup ∧ (residueCurve 7).IsPoint ⟨2⟩ ∧ (residueCurve 7).IsPoint ⟨6⟩ :=
  ⟨residues_lawful, residues_group, (residueCurve_isPoint 7 (by norm_num) _).2 (by decide),
    (residueCurve_isPoint 7 (by norm_num) _).2 (by decide)⟩

theorem witness_MuladdWritesResult :
    ∃ (s : State) (p q : Pt), Config.curve.ptDec s.sm2.pt0 = some p ∧ Config.curve.ptDec s.sm2.pt1 = some q :=
  ⟨sm2State { Sm2.reset with pt0 := Config.curve.ptEnc Config.curve.G, pt1 := Config.curve.ptEnc Config.curve.inf }, _, _,
    Config.curve_lawful.base_point, Config.curve_lawful.inf_point⟩

/-- One state for each clause: a final unit, a loaded key, no key, `OP0 = 0` and `OP0 = N`, `D = N - 1`. -/
theorem witness_ErrorCodesAreRaised :
    (64 ≤ 64 ∧ (sm3State { Sm3.reset with final := true }).sm3.final = true) ∧
    (sm2State signer).sm2.mode ≠ .none ∧ State.reset.sm2.mode ≠ .sign ∧ State.reset.sm2.mode = .none ∧
    State.reset.sm2.op0.toNat = 0 ∧
    Config.curve.N ≤ (sm2State { Sm2.reset with op0 := BitVec.ofNat 512 Config.curve.N }).sm2.op0.toNat ∧
    (sm2State { Sm2.reset with key := .signing (Config.curve.N - 1) ⟨0⟩ }).sm2.mode = .sign ∧
    ((sm2State { Sm2.reset with key := .signing (Config.curve.N - 1) ⟨0⟩ }).sm2.d + 1) % Config.curve.N = 0 := by
  refine ⟨⟨by decide, rfl⟩, by decide, by decide, rfl, by decide +kernel, Nat.le_of_eq curve_order_toNat.symm, rfl, ?_⟩
  show (Config.curve.N - 1 + 1) % Config.curve.N = 0
  rw [Nat.sub_add_cancel Config.curve_lawful.order_prime.pos, Nat.mod_self]

theorem witness_BadPointIsRaised :
    ({ Sm2.reset with pt0 := 7 } : Sm2).mode = .none ∧ (residueCurve 7).ptDec 7 = none ∧ toy.ptDec (affine 702 157) = none := by
  decide +kernel

/-- An erring command of each unit. -/
theorem witness_ErrorsArePrecise :
    (∃ t, exec .sm3Finalize (sm3State { Sm3.reset with final := true }) = .next t ∧ t.sm3.err ≠ .ok) ∧
    (∃ t, exec .sm2Verify State.reset = .next t ∧ t.sm2.err ≠ .ok) :=
  ⟨⟨_, rfl, by decide⟩, ⟨_, rfl, by decide⟩⟩

/-- A state with an ABSORB in flight and its step. -/
theorem witness_StepKeepsInvariant :
    ∃ s t : State, s.Inv ∧ step s = .next t := by
  have hpos := Config.curve_lawful.order_prime.pos
  refine ⟨(sm3State { Sm3.reset with busy := true, pend := 0x00000302 }).withTurns [.sm3], _, ⟨?_, ?_, ?_⟩, rfl⟩
  · exact ⟨by decide, by decide, by decide, by decide, .inl rfl⟩
  · exact ⟨trivial, hpos, by simpa [sm3State, State.reset, Sm2.reset] using hpos,
      by simpa [sm3State, State.reset, Sm2.reset] using hpos, .inl rfl, by decide⟩
  · exact fun k hk => absurd hk (List.not_mem_nil)

/-- Two machines that differ in the other unit. -/
theorem witness_UnitsAreIndependent :
    (Instr.sm3Absorb 3).unit = .sm3 ∧ State.reset.sm3 = (sm2State signer).sm3 ∧ State.reset.free = (sm2State signer).free ∧
    Instr.sm2Verify.unit = .sm2 ∧ State.reset.sm2 = (sm3State abcPending).sm2 ∧
    State.reset.answers = (sm3State abcPending).answers ∧ Reg.sm3Fill.unit = .sm3 ∧ Reg.sm2Status.unit = .sm2 ∧
    (∃ t, State.reset.writeReg (.sm3Din 0) 5 = .next t) ∧ (∃ t, State.reset.writeReg (.sm2Op0 0) 5 = .next t) :=
  ⟨rfl, rfl, rfl, rfl, rfl, rfl, rfl, rfl, ⟨_, rfl⟩, ⟨_, rfl⟩⟩

theorem witness_PrivateKeyIsUnreadable :
    ∃ t, busRead 32 0x804 (sm2State { Sm2.reset with key := .signing 7 ⟨0⟩ }) = .next t := ⟨_, rfl⟩

/-- A LOAD_PUB in flight over the configured capability, and the key it loads. -/
theorem witness_KeyChangesOnlyByLoadOrReset :
    ∃ s t : State, step s = .next t ∧ t.sm2.key ≠ s.sm2.key := by
  refine ⟨((sm2State { Sm2.reset with busy := true, pend := 0x00000011, pt0 := Config.curve.ptEnc Config.curve.G }).withTurns
    [.sm2]), _, rfl, ?_⟩
  have hd : Config.curve.ptDec (Config.curve.ptEnc Config.curve.G) = some Config.curve.G := Config.curve_lawful.base_point
  show (Sm2.finish _ (Sm2.loadPubRule Config.curve { Sm2.reset with
    busy := true, pend := 0x00000011, pt0 := Config.curve.ptEnc Config.curve.G })).key ≠ .empty
  simp only [Sm2.loadPubRule, hd, Sm2.mode, Key.mode, Sm2.reset]
  simp [Sm2.finish]

/-- A unit with VALID set, about to complete a VERIFY with `r = 0`. -/
def staleValid : Sm2 := { Sm2.reset with busy := true, pend := 0x00000031, valid := true, key := .verifying ⟨0⟩ }

theorem staleValid_rule :
    staleValid.verifyRule Config.curve = .ok { staleValid with valid := false, eacc := 0 } := by
  have hq : staleValid.q = some ⟨0⟩ := rfl
  have h0 : staleValid.op0.toNat = 0 := by decide +kernel
  simp only [Sm2.verifyRule, hq, verifySignature, h0, Nat.zero_lt_one, true_or, if_true]

theorem witness_ValidChangesOnlyByVerifyOrReset :
    ∃ s t : State, step s = .next t ∧ t.sm2.valid ≠ s.sm2.valid := by
  refine ⟨(sm2State staleValid).withTurns [.sm2], _, rfl, ?_⟩
  show (staleValid.finish (staleValid.verifyRule Config.curve)).valid ≠ true
  rw [staleValid_rule]
  decide

/-- A FINALIZE in flight changes `V`; an ABSORB in flight changes `CNT`. -/
theorem witness_ChainingChangesOnlyBySm3Commands :
    (after (fun t => decide (t.sm3.v = Config.iv)) (step
      ((sm3State { Sm3.reset with busy := true, pend := 0x00000003 }).withTurns [.sm3])) = some false) ∧
    (after (fun t => decide (t.sm3.cnt = 0)) (step
      ((sm3State { Sm3.reset with busy := true, pend := 0x00000302 }).withTurns [.sm3])) = some false) := by decide +kernel

/-- Program P1, as far as its pseudo-statement goes. -/
theorem witness_LegalProgramMeetsNoFault : ∀ st ∈ [Stmt.write 32 0x040 0x61626300, .read 32 0x004, .poll .sm3], st.Legal := by
  intro st h
  simp only [List.mem_cons, List.not_mem_nil, or_false] at h
  rcases h with rfl | rfl | rfl
  · exact ⟨rfl, .sm3Din 0, rfl, by decide⟩
  · exact ⟨rfl, .sm3Status, rfl⟩
  · trivial

theorem witness_LoadWindowLoads :
    ∃ (s : State) (x : BitVec 512), s.sm2.busy = false ∧ s.program = loadWin 16 Reg.sm2Op0 x ++ [.poll .sm2] ∧
      s.turns = List.replicate 16 .host ++ [.sm2] :=
  ⟨(State.reset.withProgram (loadWin 16 Reg.sm2Op0 7 ++ [.poll .sm2])).withTurns (List.replicate 16 .host ++ [.sm2]), 7,
    rfl, rfl, rfl⟩

theorem witness_PollWaitsForCompletion :
    (State.reset.withProgram [.poll .sm3, .read 32 0x080]).program = .poll .sm3 :: [.read 32 0x080] := rfl

end Sys2Proof.Tests
end

/-! What a command, a register and a register write of one unit read and leave of the other (00_scope.md R3). -/

namespace Sys2Proof.Machine

/-! ## Two machines with the same unit -/

/-- FINALIZE reads the SM3 unit and the count of free values only, and changes nothing else. -/
theorem finalizeOf_agrees {s s' : State} (hu : s.sm3 = s'.sm3) (hf : s.free = s'.free) :
    ∃ u n, s.finalizeOf = { s with sm3 := u, free := n } ∧ s'.finalizeOf = { s' with sm3 := u, free := n } := by
  unfold State.finalizeOf
  rw [← hu, ← hf]
  cases s.sm3.finalizeRule (Config.bufAfterFinalize s.free) with
  | error c => exact ⟨s.sm3.finish (.error c), s.free, rfl, by rw [hu, hf]; rfl⟩
  | ok u => exact ⟨s.sm3.finish (.ok u), s.free + 1, rfl, by rw [hf]; rfl⟩

/-- A command of the SM3 unit reads that unit and the count of free values only, and changes nothing else. -/
theorem exec_sm3_agrees {i : Instr} (h : i.unit = .sm3) {s s' : State} (hu : s.sm3 = s'.sm3) (hf : s.free = s'.free) :
    ∃ u n, exec i s = .next { s with sm3 := u, free := n } ∧ exec i s' = .next { s' with sm3 := u, free := n } := by
  cases i <;> simp only [Instr.unit, reduceCtorEq] at h
  case sm3Reset => exact ⟨s.sm3.unitReset, s.free, rfl, by rw [hu, hf]; rfl⟩
  case sm3Absorb nb => exact ⟨s.sm3.finish (s.sm3.absorbRule nb), s.free, rfl, by rw [hu, hf]; rfl⟩
  case sm3Finalize =>
    obtain ⟨u, n, hs, hs'⟩ := finalizeOf_agrees hu hf
    exact ⟨u, n, congrArg _ hs, congrArg _ hs'⟩

/-- SIGN reads the SM2 unit and the answers of the randomness source only, and changes nothing else. -/
theorem signOf_agrees (c : Curve) {s s' : State} (hu : s.sm2 = s'.sm2) (ha : s.answers = s'.answers) :
    ∃ u a, s.signOf c = { s with sm2 := u, answers := a } ∧ s'.signOf c = { s' with sm2 := u, answers := a } := by
  have raised (e : ErrCode) : ∃ u a, s.raise .sm2 e = { s with sm2 := u, answers := a } ∧
      s'.raise .sm2 e = { s' with sm2 := u, answers := a } :=
    ⟨s.sm2.finish (.error e), s.answers, rfl, by rw [hu, ha]; rfl⟩
  unfold State.signOf
  rw [← hu, ← ha]
  cases s.sm2.key with
  | empty => exact raised .modeErr
  | verifying q => exact raised .modeErr
  | signing d q =>
    by_cases hd : (d + 1) % c.N = 0
    · simp only [if_pos hd]
      exact raised .noInverse
    · simp only [if_neg hd]
      cases signLoop c d s.sm2.eacc s.answers with
      | none => exact ⟨s.sm2, [], rfl, by rw [hu]; rfl⟩
      | some sig => exact ⟨_, sig.2, rfl, rfl⟩

/-- A command of the SM2 unit other than SIGN is a function of that unit alone. -/
theorem exec_sm2_of_ne_sign {i : Instr} (h : i.unit = .sm2) (hi : i ≠ .sm2Sign) :
    ∃ f : Sm2 → Sm2, ∀ s : State, exec i s = .next (s.withSm2 (f s.sm2)) := by
  cases i <;> simp only [Instr.unit, reduceCtorEq, ne_eq, not_true_eq_false] at h hi
  case sm2Reset => exact ⟨Sm2.unitReset, fun _ => rfl⟩
  case sm2LoadPriv => exact ⟨fun u => u.finish (u.loadPrivRule Config.curve), fun _ => rfl⟩
  case sm2LoadPub => exact ⟨fun u => u.finish (u.loadPubRule Config.curve), fun _ => rfl⟩
  case sm2MsgClear => exact ⟨fun u => u.finish u.msgClearRule, fun _ => rfl⟩
  case sm2MsgAbsorb nb => exact ⟨fun u => u.finish (u.msgAbsorbRule Config.curve nb), fun _ => rfl⟩
  case sm2Verify => exact ⟨fun u => u.finish (u.verifyRule Config.curve), fun _ => rfl⟩
  case sm2Muladd => exact ⟨fun u => u.finish (u.muladdRule Config.curve), fun _ => rfl⟩

/-- A command of the SM2 unit reads that unit and the answers of the randomness source only, and changes nothing else. -/
theorem exec_sm2_agrees {i : Instr} (h : i.unit = .sm2) {s s' : State} (hu : s.sm2 = s'.sm2)
    (ha : s.answers = s'.answers) :
    ∃ u a, exec i s = .next { s with sm2 := u, answers := a } ∧ exec i s' = .next { s' with sm2 := u, answers := a } := by
  by_cases hi : i = .sm2Sign
  · subst hi
    obtain ⟨u, a, hs, hs'⟩ := signOf_agrees Config.curve hu ha
    exact ⟨u, a, congrArg _ hs, congrArg _ hs'⟩
  · obtain ⟨f, hf⟩ := exec_sm2_of_ne_sign h hi
    exact ⟨f s.sm2, s.answers, hf s, by rw [hf s', hu, ha]; rfl⟩

/-! ## Registers -/

/-- The value of an SM3 register is a function of the SM3 unit. -/
theorem regValue_agrees_sm3 {r : Reg} (h : r.unit = .sm3) {s s' : State} (hu : s.sm3 = s'.sm3) :
    s.regValue r = s'.regValue r := by
  cases r <;> simp only [Reg.unit, reduceCtorEq] at h <;> simp only [State.regValue, State.regValueOf, hu]

/-- The value of an SM2 register is a function of the SM2 unit. -/
theorem regValue_agrees_sm2 {r : Reg} (h : r.unit = .sm2) {s s' : State} (hu : s.sm2 = s'.sm2) :
    s.regValue r = s'.regValue r := by
  cases r <;> simp only [Reg.unit, reduceCtorEq] at h <;> simp only [State.regValue, State.regValueOf, hu]

/-- Setting an SM3 register leaves the SM2 unit. -/
theorem setReg_sm2_of_sm3 {r : Reg} (h : r.unit = .sm3) (s : State) (v : Word) : (s.setReg r v).sm2 = s.sm2 := by
  cases r <;> simp only [Reg.unit, reduceCtorEq] at h <;> rfl

/-- Setting an SM2 register leaves the SM3 unit. -/
theorem setReg_sm3_of_sm2 {r : Reg} (h : r.unit = .sm2) (s : State) (v : Word) : (s.setReg r v).sm3 = s.sm3 := by
  cases r <;> simp only [Reg.unit, reduceCtorEq] at h <;> rfl

/-- A write to an SM3 register, whatever it does (RESET word, issue, dropped write), leaves the SM2 unit. -/
theorem writeReg_sm2_of_sm3 {r : Reg} (hr : r.unit = .sm3) {v : Word} {s t : State} (h : s.writeReg r v = .next t) :
    t.sm2 = s.sm2 := by
  rcases writeReg_cases h with ⟨-, -, rfl⟩ | ⟨-, -, rfl⟩ | ⟨-, -, hx⟩ | ⟨-, -, -, rfl⟩ | ⟨-, -, -, rfl⟩
  · rw [hr, State.dropWrite_sm3_sm2]
  · exact setReg_sm2_of_sm3 hr s v
  · rw [hr] at hx
    cases hx
    rfl
  · rw [hr, State.dropWrite_sm3_sm2]
  · rw [hr, State.issue_sm3_sm2]

/-- A write to an SM2 register leaves the SM3 unit. -/
theorem writeReg_sm3_of_sm2 {r : Reg} (hr : r.unit = .sm2) {v : Word} {s t : State} (h : s.writeReg r v = .next t) :
    t.sm3 = s.sm3 := by
  rcases writeReg_cases h with ⟨-, -, rfl⟩ | ⟨-, -, rfl⟩ | ⟨-, -, hx⟩ | ⟨-, -, -, rfl⟩ | ⟨-, -, -, rfl⟩
  · rw [hr, State.dropWrite_sm2_sm3]
  · exact setReg_sm3_of_sm2 hr s v
  · rw [hr] at hx
    cases hx
    rfl
  · rw [hr, State.dropWrite_sm2_sm3]
  · rw [hr, State.issue_sm2_sm3]

/-! ## The statement -/

/-- Settles O52: each unit's commands agree on two machines with the same unit, and its registers read and write that unit
alone. -/
theorem unitsAreIndependent : Obligations.UnitsAreIndependent := by
  refine ⟨fun i s s' hi hu hf => ?_, fun i s s' hi hu ha => ?_, fun r s s' hr hu => regValue_agrees_sm3 hr hu,
    fun r s s' hr hu => regValue_agrees_sm2 hr hu,
    fun r v s t h => ⟨fun hr => writeReg_sm2_of_sm3 hr h, fun hr => writeReg_sm3_of_sm2 hr h⟩⟩
  · obtain ⟨u, n, hs, hs'⟩ := exec_sm3_agrees hi hu hf
    exact ⟨_, _, hs, hs', rfl, rfl, rfl⟩
  · obtain ⟨u, a, hs, hs'⟩ := exec_sm2_agrees hi hu ha
    exact ⟨_, _, hs, hs', rfl, rfl, rfl⟩

end Sys2Proof.Machine

/-! The register map's reserved offsets (10_state.md R59) and the fields of the two STATUS registers (R41, R48). -/

namespace Sys2Proof.Machine

/-! ## Offsets where no register stands -/

/-- The four reserved ranges of 10_state.md R59; the last one ends where the 4096-byte register space does. -/
def ReservedOffset (a : Nat) : Prop :=
  (0x014 ≤ a ∧ a ≤ 0x03C) ∨ (0x0A0 ≤ a ∧ a ≤ 0x7FC) ∨ (0x80C ≤ a ∧ a ≤ 0x83C) ∨ 0xB80 ≤ a

/-- The lookup finds nothing exactly if no register stands at the offset. -/
theorem Reg.at?_eq_none_iff {a : Nat} (ha : a % 4 = 0) : Reg.at? a = none ↔ ∀ r : Reg, r.offset ≠ a := by
  constructor
  · rintro hnone r rfl
    exact absurd (r.at?_offset.symm.trans hnone) (Option.some_ne_none r)
  · intro hfree
    exact Option.eq_none_iff_forall_ne_some.2 fun r hr => hfree r (Reg.at?_some hr ha)

/-- The lookup finds nothing exactly in the reserved ranges: every branch of the map that answers none is one of them. -/
theorem Reg.at?_eq_none_iff_reservedOffset {a : Nat} (ha : a % 4 = 0) : Reg.at? a = none ↔ ReservedOffset a := by
  unfold ReservedOffset
  simp only [Reg.at?, ite_eq_iff, reduceCtorEq, and_false, false_or, and_true]
  omega

/-- A 32-bit access at an aligned offset where nothing is found is the reserved-offset bus error. -/
theorem accessReg_of_at?_none {a : BitVec 12} (ha : a.toNat % 4 = 0) (h : Reg.at? a.toNat = none) :
    accessReg 32 a = .error .busReserved := by
  simp [accessReg, ha, h]

/-- A read of an access that reaches no register is answered with the access's bus error. -/
theorem busRead_of_error {width : Nat} {a : BitVec 12} {f : Fault} (h : accessReg width a = .error f) (s : State) :
    busRead width a s = .fault f := by
  simp [busRead, h]

/-- A write of an access that reaches no register is answered with the access's bus error. -/
theorem busWrite_of_error {width : Nat} {a : BitVec 12} {f : Fault} (h : accessReg width a = .error f) (v : Word)
    (s : State) : busWrite width a v s = .fault f := by
  simp [busWrite, h]

/-- Settles O5: the offsets are the map's own, and both "no register stands here" and "in a reserved range" say that the lookup
finds nothing. -/
theorem reservedOffsetsAreBusErrors : Obligations.ReservedOffsetsAreBusErrors := by
  refine ⟨?_, fun r => ⟨r.offset_mod_four, r.offset_lt, r.at?_offset⟩, fun a ha => ⟨?_, fun hfree v s => ?_⟩⟩
  · exact ⟨rfl, rfl, rfl, rfl, rfl, fun _ => rfl, fun _ => rfl, rfl, rfl, rfl, fun _ => ⟨rfl, rfl, rfl, rfl, rfl⟩,
      fun _ => ⟨rfl, rfl, rfl, rfl⟩⟩
  · exact (Reg.at?_eq_none_iff_reservedOffset ha).symm.trans (Reg.at?_eq_none_iff ha)
  · have hacc := accessReg_of_at?_none ha ((Reg.at?_eq_none_iff ha).2 hfree)
    exact ⟨busRead_of_error hacc s, busWrite_of_error hacc v s⟩

/-! ## Reading a field of a register -/

/-- Bit `i` of a register with `x` at bit `lo`: the bit of `x` there, 0 elsewhere. -/
theorem getLsbD_fieldAt {w : Nat} (lo : Nat) (x : BitVec w) (i : Nat) :
    (fieldAt lo x).getLsbD i = (decide (i < 32) && decide (lo ≤ i) && x.getLsbD (i - lo)) := by
  unfold fieldAt
  rw [BitVec.getLsbD_shiftLeft, BitVec.getLsbD_setWidth]
  grind

/-- The field that stands at bit `lo` reads back. -/
theorem extractLsb'_fieldAt_same {w : Nat} {lo : Nat} (x : BitVec w) (h : lo + w ≤ 32) :
    (fieldAt lo x).extractLsb' lo w = x := by
  refine BitVec.eq_of_getLsbD_eq fun i hi => ?_
  rw [BitVec.getLsbD_extractLsb', getLsbD_fieldAt, Nat.add_sub_cancel_left]
  simp [hi, show lo + i < 32 by omega]

/-- Bits that do not meet the field read 0. -/
theorem extractLsb'_fieldAt_disjoint {w : Nat} {lo start len : Nat} (x : BitVec w)
    (h : lo + w ≤ start ∨ start + len ≤ lo) : (fieldAt lo x).extractLsb' start len = 0 := by
  refine BitVec.eq_of_getLsbD_eq fun i hi => ?_
  rw [BitVec.getLsbD_extractLsb', getLsbD_fieldAt]
  rcases h with hbelow | habove
  · simp [BitVec.getLsbD_of_ge x (start + i - lo) (by omega)]
  · simp [show ¬ lo ≤ start + i by omega]

/-! ## The STATUS registers -/

/-- The flags of `SM3_STATUS` (10_state.md R41). -/
theorem Sm3.status_flags (u : Sm3) :
    u.status.getLsbD 0 = u.busy ∧ u.status.getLsbD 1 = u.final ∧ u.status.getLsbD 2 = u.ovr := by
  simp [Sm3.status, getLsbD_fieldAt, -BitVec.getLsbD_eq_getElem]

/-- `ERR` in `SM3_STATUS` (10_state.md R41). -/
theorem Sm3.status_err (u : Sm3) : u.status.extractLsb' 8 4 = u.err.code := by
  simp [Sm3.status, BitVec.extractLsb'_or, extractLsb'_fieldAt_same, extractLsb'_fieldAt_disjoint]

/-- The zero bits of `SM3_STATUS` (10_state.md R41). -/
theorem Sm3.status_zero_bits (u : Sm3) : u.status.extractLsb' 3 5 = 0 ∧ u.status.extractLsb' 12 20 = 0 := by
  simp [Sm3.status, BitVec.extractLsb'_or, extractLsb'_fieldAt_disjoint]

/-- The flags of `SM2_STATUS`, with bit 1, which is none (10_state.md R48). -/
theorem Sm2.status_flags (u : Sm2) :
    u.status.getLsbD 0 = u.busy ∧ u.status.getLsbD 1 = false ∧ u.status.getLsbD 2 = u.ovr ∧
      u.status.getLsbD 3 = u.valid := by
  simp [Sm2.status, getLsbD_fieldAt, -BitVec.getLsbD_eq_getElem]

/-- `MODE` and `ERR` in `SM2_STATUS` (10_state.md R48). -/
theorem Sm2.status_mode_err (u : Sm2) :
    u.status.extractLsb' 4 2 = u.mode.code ∧ u.status.extractLsb' 8 4 = u.err.code := by
  simp [Sm2.status, BitVec.extractLsb'_or, extractLsb'_fieldAt_same, extractLsb'_fieldAt_disjoint]

/-- The zero bits of `SM2_STATUS` above bit 1 (10_state.md R48). -/
theorem Sm2.status_zero_bits (u : Sm2) : u.status.extractLsb' 6 2 = 0 ∧ u.status.extractLsb' 12 20 = 0 := by
  simp [Sm2.status, BitVec.extractLsb'_or, extractLsb'_fieldAt_disjoint]

/-- A 32-bit write to a read-only register is the read-only bus error (20_memory.md R66). -/
theorem busWrite_readOnly {r : Reg} (h : r.access = .ro) (v : Word) (s : State) :
    busWrite 32 (BitVec.ofNat 12 r.offset) v s = .fault .busReadOnly := by
  simp [busWrite, accessReg_offset, State.writeReg, h]

/-- Settles O8: each STATUS word field by field, then its access right, its reset value and the two numberings. -/
theorem statusRegisterFields : Obligations.StatusRegisterFields := by
  refine ⟨fun s => ?_, fun s v => ⟨busWrite_readOnly (r := .sm3Status) rfl v s, busWrite_readOnly (r := .sm2Status) rfl v s⟩,
    rfl, rfl, ⟨rfl, rfl, rfl, rfl, rfl, rfl, rfl⟩, rfl, rfl, rfl⟩
  obtain ⟨hbusy, hfinal, hovr⟩ := s.sm3.status_flags
  obtain ⟨hlow, hhigh⟩ := s.sm3.status_zero_bits
  obtain ⟨hbusy', hbit1, hovr', hvalid⟩ := s.sm2.status_flags
  obtain ⟨hmode, herr⟩ := s.sm2.status_mode_err
  obtain ⟨hlow', hhigh'⟩ := s.sm2.status_zero_bits
  exact ⟨hbusy, hfinal, hovr, s.sm3.status_err, hlow, hhigh, hbusy', hbit1, hovr', hvalid, hmode, hlow', herr, hhigh'⟩

end Sys2Proof.Machine

/-! The order of words in a wide window and of bytes in a byte window (20_memory.md R63, R64). -/

namespace Sys2Proof.Machine

/-! ## Wide windows -/

/-- The words of a window stand from its top bit down (20_memory.md R63). -/
theorem wideWord_eq_extractLsb' {w : Nat} (n : Nat) (x : BitVec w) (k : Nat) :
    wideWord n x k = x.extractLsb' (32 * (n - 1) - 32 * k) 32 := by
  rw [wideWord, Nat.mul_sub]

/-- A window after one of its words was written: that word is the new one, every other is as it was. -/
theorem extractLsb'_wideSet (n : Nat) (x : BitVec (32 * n)) (k j : Fin n) (v : Word) :
    (wideSet n x k.val v).extractLsb' (32 * (n - 1) - 32 * j.val) 32 =
      if j = k then v else x.extractLsb' (32 * (n - 1) - 32 * j.val) 32 := by
  rw [← wideWord_eq_extractLsb', ← wideWord_eq_extractLsb']
  by_cases hjk : j = k
  · rw [if_pos hjk, hjk, wideWord_wideSet_same n x k.val v k.isLt]
  · rw [if_neg hjk, wideWord_wideSet_ne n x k.val j.val v k.isLt j.isLt (Fin.val_ne_of_ne hjk)]

/-- Settles O10: the offsets are the map's own, each register is a word of its window, and a write sets one word of the value. -/
theorem wideWindowsMostSignificantWordFirst : Obligations.WideWindowsMostSignificantWordFirst := by
  refine ⟨fun _ => ⟨rfl, rfl, rfl, rfl⟩, fun _ => ⟨rfl, rfl, rfl⟩, fun s k => ?_, fun s k => ?_, fun s k j v => ?_,
    fun s k j v => ?_⟩
  · have word (x : BitVec 512) := wideWord_eq_extractLsb' 16 x k.val
    exact ⟨word s.sm2.op0, word s.sm2.op1, word s.sm2.rs0, word s.sm2.rs1⟩
  · have word (x : BitVec 1024) := wideWord_eq_extractLsb' 32 x k.val
    exact ⟨word s.sm2.pt0, word s.sm2.pt1, word s.sm2.rpt⟩
  · exact ⟨extractLsb'_wideSet 16 s.sm2.op0 k j v, extractLsb'_wideSet 16 s.sm2.op1 k j v⟩
  · exact ⟨extractLsb'_wideSet 32 s.sm2.pt0 k j v, extractLsb'_wideSet 32 s.sm2.pt1 k j v⟩

/-! ## Byte windows -/

/-- The number of a byte is four times its word's number and its place in the word, from the top (20_memory.md R64). -/
theorem windowByte_of_word {win : Vector Word 16} {i b : Nat} (hi : i < 16) (hb : b < 4) :
    windowByte win (4 * i + b) = win[i].extractLsb' (24 - 8 * b) 8 := by
  have hword : (4 * i + b) / 4 = i := by omega
  have hplace : (4 * i + b) % 4 = b := by omega
  rw [windowByte, hword, hplace, Vector.getElem?_eq_getElem hi, Option.getD_some]

/-- Fewer bytes of a window are the first ones of more bytes of it. -/
theorem windowBytes_eq_take (win : Vector Word 16) {nb n : Nat} (h : nb ≤ n) :
    windowBytes win nb = (windowBytes win n).take nb := by
  rw [windowBytes, windowBytes, ← List.map_take, List.take_range, Nat.min_eq_left h]

/-- Byte `j` of a full window taken as a block is byte `j` of the window. -/
theorem getElem_blockOf_windowBytes (win : Vector Word 16) {j : Nat} (hj : j < 64) :
    (blockOf (windowBytes win 64))[j] = windowByte win j := by
  simp [blockOf, windowBytes]

/-- The four bytes of a word, most significant first, make up the word. -/
theorem be32_extractLsb' (x : Word) :
    be32 (x.extractLsb' 24 8) (x.extractLsb' 16 8) (x.extractLsb' 8 8) (x.extractLsb' 0 8) = x := by
  rw [be32, BitVec.extractLsb'_append_extractLsb'_eq_extractLsb' (rfl : 24 = 16 + 8),
    BitVec.extractLsb'_append_extractLsb'_eq_extractLsb' (rfl : 16 = 8 + 8),
    BitVec.extractLsb'_append_extractLsb'_eq_extractLsb' (rfl : 8 = 0 + 8)]
  exact BitVec.extractLsb'_eq_self

/-- The four bytes at a word's number in a window, parsed as R141 parses them, are the word. -/
theorem be32_windowByte {win : Vector Word 16} {i : Nat} (hi : i < 16) :
    be32 (windowByte win (4 * i)) (windowByte win (4 * i + 1)) (windowByte win (4 * i + 2)) (windowByte win (4 * i + 3)) =
      win[i] := by
  have byte {b : Nat} (hb : b < 4) := windowByte_of_word (win := win) hi hb
  have top : windowByte win (4 * i) = win[i].extractLsb' 24 8 := byte (b := 0) (by decide)
  rw [top, byte (by decide : 1 < 4), byte (by decide : 2 < 4), byte (by decide : 3 < 4)]
  exact be32_extractLsb' win[i]

/-- A full window parses into its own words. -/
theorem parseBlock_blockOf_windowBytes (win : Vector Word 16) :
    parseBlock (blockOf (windowBytes win 64)) = win.toList := by
  refine List.ext_getElem (by simp [parseBlock]) fun i hi _ => ?_
  have hi16 : i < 16 := by simpa [parseBlock] using hi
  simp only [parseBlock, List.getElem_map, List.getElem_finRange, getElem_blockOf_windowBytes, Vector.getElem_toList]
  exact be32_windowByte hi16

/-- Settles O21: byte by byte for the numbering, and word by word for the parse of a full window. -/
theorem byteWindowsAreBigEndian : Obligations.ByteWindowsAreBigEndian := fun win =>
  ⟨fun i b => windowByte_of_word i.isLt b.isLt, fun _ hnb => windowBytes_eq_take win hnb,
    parseBlock_blockOf_windowBytes win⟩

end Sys2Proof.Machine

/-! The command words (30_encoding.md R92, R95): decoded words, legal words and words of well-formed commands are the same. -/

namespace Sys2Proof

/-! ## Legal words and the decoder -/

/-- A word with the fields of a well-formed command is legal on the command's unit (30_encoding.md R95). -/
theorem legal_of_fields {v : Word} {i : Instr} (hwf : i.wf = true) (hrsv : fieldRsv v = 0)
    (hop : fieldOp v = i.opcode) (hnb : fieldNb v = i.count) : legal i.unit v = true := by
  unfold legal
  rw [hrsv, hop, hnb]
  cases i with
  | sm3Absorb nb | sm2MsgAbsorb nb => exact hwf
  | _ => rfl

/-- Opcode by opcode of R93 and R94: a legal word decodes. -/
theorem exists_decode_of_legal {u : UnitId} {v : Word} (h : legal u v = true) : ∃ i, decode u v = .ok i := by
  simp only [legal, Bool.and_eq_true, beq_iff_eq, List.contains_iff_mem] at h
  obtain ⟨⟨hrsv, hop⟩, hnb⟩ := h
  cases u with
  | sm3 =>
    simp only [List.mem_cons, List.not_mem_nil, or_false] at hop
    rcases hop with hop | hop | hop <;> simpa [decode, opcodeMap, hrsv, hop, ite_eq_iff] using hnb
  | sm2 =>
    simp only [List.mem_cons, List.not_mem_nil, or_false] at hop
    rcases hop with hop | hop | hop | hop | hop | hop | hop | hop <;>
      simpa [decode, opcodeMap, hrsv, hop, ite_eq_iff] using hnb

/-- The decoder accepts exactly the legal words (30_encoding.md R95). -/
theorem exists_decode_iff_legal (u : UnitId) (v : Word) : (∃ i, decode u v = .ok i) ↔ legal u v = true := by
  refine ⟨fun ⟨i, hi⟩ => ?_, exists_decode_of_legal⟩
  obtain ⟨rfl, hwf, hrsv, hop, hnb⟩ := decode_ok hi
  exact legal_of_fields hwf hrsv hop hnb

/-- A word with reserved bits set is legal on no unit (30_encoding.md R92). -/
theorem legal_eq_false_of_fieldRsv_ne_zero (u : UnitId) {v : Word} (h : fieldRsv v ≠ 0) : legal u v = false := by
  simp only [legal, beq_eq_false_iff_ne.2 h, Bool.false_and]

/-! ## Legal words and commands -/

/-- The count of a well-formed command fits its seven bits (30_encoding.md R91). -/
theorem Instr.count_lt_of_wf {i : Instr} (h : i.wf = true) : i.count < 128 := by
  cases i with
  | sm3Absorb nb | sm2MsgAbsorb nb => exact Nat.lt_of_le_of_lt (of_decide_eq_true h) (by decide)
  | _ => decide

/-- The legal words of a unit are the words of its well-formed commands. -/
theorem legal_iff_exists_encode (u : UnitId) (v : Word) :
    legal u v = true ↔ ∃ i : Instr, i.unit = u ∧ i.wf = true ∧ v = encode i := by
  constructor
  · intro h
    obtain ⟨i, hi⟩ := exists_decode_of_legal h
    obtain ⟨hu, hwf, hrsv, hop, hnb⟩ := decode_ok hi
    refine ⟨i, hu, hwf, ?_⟩
    rw [word_of_fields v, hrsv, hop, hnb]
    rfl
  · rintro ⟨i, rfl, hwf, rfl⟩
    obtain ⟨hrsv, hop, hnb⟩ := Laws.EncodeFields.of_count i Instr.count_lt_of_wf hwf
    exact legal_of_fields hwf hrsv hop hnb

/-- `NB` stands at bit 8: a command's word is its opcode plus 0x100 for each byte of its count (30_encoding.md R90). -/
theorem encode_eq_add {i : Instr} (h : i.wf = true) :
    encode i = i.opcode.setWidth 32 + BitVec.ofNat 32 (i.count * 0x100) := by
  have hcount := Instr.count_lt_of_wf h
  have hopcode := i.opcode.isLt
  apply BitVec.eq_of_toNat_eq
  simp only [encode, BitVec.toNat_append, BitVec.toNat_add, BitVec.toNat_ofNat, BitVec.toNat_setWidth]
  rw [Nat.zero_mod, Nat.zero_shiftLeft, Nat.zero_or, ← Nat.shiftLeft_add_eq_or_of_lt hopcode, Nat.shiftLeft_eq]
  omega

/-- The legal words of the SM3 unit, as R95 lists them. -/
theorem legal_sm3_iff (v : Word) : legal .sm3 v = true ↔
    v = 0x00000001 ∨ (∃ nb ≤ 64, v = 0x00000002 + BitVec.ofNat 32 (nb * 0x100)) ∨ v = 0x00000003 := by
  have word {nb : Nat} (h : nb ≤ 64) : encode (.sm3Absorb nb) = 0x00000002 + BitVec.ofNat 32 (nb * 0x100) :=
    encode_eq_add (decide_eq_true h)
  rw [legal_iff_exists_encode]
  constructor
  · rintro ⟨i, hu, hwf, rfl⟩
    cases i with
    | sm3Reset => exact .inl rfl
    | sm3Absorb nb =>
      have hnb : nb ≤ 64 := of_decide_eq_true hwf
      exact .inr (.inl ⟨nb, hnb, word hnb⟩)
    | sm3Finalize => exact .inr (.inr rfl)
    | _ => cases hu
  · rintro (rfl | ⟨nb, hnb, rfl⟩ | rfl)
    · exact ⟨.sm3Reset, rfl, rfl, rfl⟩
    · exact ⟨.sm3Absorb nb, rfl, decide_eq_true hnb, (word hnb).symm⟩
    · exact ⟨.sm3Finalize, rfl, rfl, rfl⟩

/-- The legal words of the SM2 unit, as R95 lists them. -/
theorem legal_sm2_iff (v : Word) : legal .sm2 v = true ↔
    v = 0x00000001 ∨ v = 0x00000010 ∨ v = 0x00000011 ∨ v = 0x00000020 ∨
      (∃ nb ≤ 64, v = 0x00000021 + BitVec.ofNat 32 (nb * 0x100)) ∨ v = 0x00000030 ∨ v = 0x00000031 ∨ v = 0x00000040 := by
  have word {nb : Nat} (h : nb ≤ 64) : encode (.sm2MsgAbsorb nb) = 0x00000021 + BitVec.ofNat 32 (nb * 0x100) :=
    encode_eq_add (decide_eq_true h)
  rw [legal_iff_exists_encode]
  constructor
  · rintro ⟨i, hu, hwf, rfl⟩
    cases i with
    | sm2Reset => exact .inl rfl
    | sm2LoadPriv => exact .inr (.inl rfl)
    | sm2LoadPub => exact .inr (.inr (.inl rfl))
    | sm2MsgClear => exact .inr (.inr (.inr (.inl rfl)))
    | sm2MsgAbsorb nb =>
      have hnb : nb ≤ 64 := of_decide_eq_true hwf
      exact .inr (.inr (.inr (.inr (.inl ⟨nb, hnb, word hnb⟩))))
    | sm2Sign => exact .inr (.inr (.inr (.inr (.inr (.inl rfl)))))
    | sm2Verify => exact .inr (.inr (.inr (.inr (.inr (.inr (.inl rfl))))))
    | sm2Muladd => exact .inr (.inr (.inr (.inr (.inr (.inr (.inr rfl))))))
    | _ => cases hu
  · rintro (rfl | rfl | rfl | rfl | ⟨nb, hnb, rfl⟩ | rfl | rfl | rfl)
    · exact ⟨.sm2Reset, rfl, rfl, rfl⟩
    · exact ⟨.sm2LoadPriv, rfl, rfl, rfl⟩
    · exact ⟨.sm2LoadPub, rfl, rfl, rfl⟩
    · exact ⟨.sm2MsgClear, rfl, rfl, rfl⟩
    · exact ⟨.sm2MsgAbsorb nb, rfl, decide_eq_true hnb, (word hnb).symm⟩
    · exact ⟨.sm2Sign, rfl, rfl, rfl⟩
    · exact ⟨.sm2Verify, rfl, rfl, rfl⟩
    · exact ⟨.sm2Muladd, rfl, rfl, rfl⟩

end Sys2Proof

namespace Sys2Proof.Machine

/-! ## An illegal word in flight -/

/-- The turn of a unit busy with an illegal word raises `ILLEGAL_CMD` (30_encoding.md R95, R98). -/
theorem completeUnit_of_illegal {u : UnitId} {s : State} (hbusy : s.busy u = true) (hill : legal u (s.pend u) = false) :
    completeUnit u s = .next (s.raise u .illegalCmd) := by
  unfold completeUnit
  rw [if_pos hbusy]
  cases hd : decode u (s.pend u) with
  | error e => rfl
  | ok i => exact absurd ((exists_decode_iff_legal u _).1 ⟨i, hd⟩) (Bool.eq_false_iff.1 hill)

/-- Settles O2: the decoder and R95 accept the same words, these are the words of the well-formed commands, and on any other the
completion raises. -/
theorem decoderAcceptsExactlyLegalWords : Obligations.DecoderAcceptsExactlyLegalWords :=
  ⟨exists_decode_iff_legal, fun u _ => legal_eq_false_of_fieldRsv_ne_zero u, legal_sm3_iff, legal_sm2_iff,
    fun _ hbusy hill => completeUnit_of_illegal (u := .sm3) hbusy hill,
    fun _ hbusy hill => completeUnit_of_illegal (u := .sm2) hbusy hill⟩

end Sys2Proof.Machine

/-! The SM3 digest unit (40_sm3_digest.md): its byte counter, what a step can do to the unit, the bytes of the digest, and the
state a message leaves behind. -/

namespace Sys2Proof.Machine

/-! ## The byte counter (R114) -/

/-- The low half of the counter, modulo 2^32. -/
theorem Sm3.countBytes_cntLo_toNat (u : Sm3) (n : Nat) :
    (u.countBytes n).cntLo.toNat = (u.cntLo.toNat + n) % 2 ^ 32 := by
  simp [Sm3.countBytes]

/-- The high half of the counter takes the carry, modulo 2^32. -/
theorem Sm3.countBytes_cntHi_toNat (u : Sm3) (n : Nat) :
    (u.countBytes n).cntHi.toNat = (u.cntHi.toNat + (u.cntLo.toNat + n) / 2 ^ 32) % 2 ^ 32 := by
  simp [Sm3.countBytes, Nat.shiftRight_eq_div_pow]

/-- Counting no bytes changes nothing. -/
theorem Sm3.countBytes_zero (u : Sm3) : u.countBytes 0 = u := by
  have hlo : (u.countBytes 0).cntLo = u.cntLo :=
    BitVec.eq_of_toNat_eq ((u.countBytes_cntLo_toNat 0).trans (Nat.mod_eq_of_lt u.cntLo.isLt))
  have hhi : (u.countBytes 0).cntHi = u.cntHi := by
    refine BitVec.eq_of_toNat_eq ((u.countBytes_cntHi_toNat 0).trans ?_)
    rw [Nat.add_zero, Nat.div_eq_of_lt u.cntLo.isLt]
    exact Nat.mod_eq_of_lt u.cntHi.isLt
  calc u.countBytes 0 = { u with cntLo := (u.countBytes 0).cntLo, cntHi := (u.countBytes 0).cntHi } := rfl
    _ = u := by rw [hlo, hhi]

@[simp] theorem Sm3.absorbPhase1_cntLo (u : Sm3) (m : List Byte) : (u.absorbPhase1 m).1.cntLo = u.cntLo := by
  unfold Sm3.absorbPhase1; split <;> rfl
@[simp] theorem Sm3.absorbPhase1_cntHi (u : Sm3) (m : List Byte) : (u.absorbPhase1 m).1.cntHi = u.cntHi := by
  unfold Sm3.absorbPhase1; split <;> rfl
@[simp] theorem Sm3.absorbPhase2_cntLo (u : Sm3) (m : List Byte) : (u.absorbPhase2 m).1.cntLo = u.cntLo := by
  unfold Sm3.absorbPhase2; split <;> rfl
@[simp] theorem Sm3.absorbPhase2_cntHi (u : Sm3) (m : List Byte) : (u.absorbPhase2 m).1.cntHi = u.cntHi := by
  unfold Sm3.absorbPhase2; split <;> rfl
@[simp] theorem Sm3.absorbPhase3_cntLo (u : Sm3) (m : List Byte) : (u.absorbPhase3 m).cntLo = u.cntLo := by
  simp only [Sm3.absorbPhase3]
@[simp] theorem Sm3.absorbPhase3_cntHi (u : Sm3) (m : List Byte) : (u.absorbPhase3 m).cntHi = u.cntHi := by
  simp only [Sm3.absorbPhase3]

/-- What `absorb(bytes)` does to the counter is the count of its bytes, whatever the buffer holds. -/
theorem Sm3.absorbBytes_counter (u : Sm3) (m : List Byte) :
    (u.absorbBytes m).cntLo = (u.countBytes m.length).cntLo ∧
      (u.absorbBytes m).cntHi = (u.countBytes m.length).cntHi := by
  by_cases hm : m.length = 0
  · have hnoop : u.absorbBytes m = u := if_pos hm
    rw [hnoop, hm, u.countBytes_zero]
    exact ⟨rfl, rfl⟩
  · rw [Sm3.absorbBytes_phases hm]
    constructor <;> simp only [Sm3.absorbPhase1_cntLo, Sm3.absorbPhase1_cntHi, Sm3.absorbPhase2_cntLo,
      Sm3.absorbPhase2_cntHi, Sm3.absorbPhase3_cntLo, Sm3.absorbPhase3_cntHi]

/-! ## The commands of the unit, with and without FINAL -/

/-- ABSORB while FINAL is 0 completes with the bytes absorbed (R112). -/
theorem exec_sm3Absorb_of_not_final {s : State} {nb : Nat} (hnb : nb ≤ 64) (hf : s.sm3.final = false) :
    exec (.sm3Absorb nb) s =
      .next (s.withSm3 (s.sm3.finish (.ok (s.sm3.absorbBytes (windowBytes s.sm3.din nb))))) := by
  rw [← absorbRule_ok hnb hf]
  rfl

/-- FINALIZE while FINAL is 0 completes with the digest in `V` (R115, R118). -/
theorem exec_sm3Finalize_of_not_final {s : State} (hf : s.sm3.final = false) :
    exec .sm3Finalize s = .next (s.tick.withSm3 (s.sm3.finish (.ok { s.sm3 with
      v := s.sm3.finalDigest, buf := Config.bufAfterFinalize s.free, fill := 0, final := true }))) := by
  show Host.Outcome.next s.finalizeOf = _
  rw [State.finalizeOf, finalizeRule_ok hf]

/-- ABSORB while FINAL is 1 raises `SEQUENCE` (R119). -/
theorem exec_sm3Absorb_of_final {s : State} {nb : Nat} (hnb : nb ≤ 64) (hf : s.sm3.final = true) :
    exec (.sm3Absorb nb) s = .next (s.raise .sm3 .sequence) := by
  show Host.Outcome.next (s.withSm3 (s.sm3.finish (s.sm3.absorbRule nb))) = _
  rw [absorbRule_final hnb hf]
  rfl

/-- FINALIZE while FINAL is 1 raises `SEQUENCE` (R119). -/
theorem exec_sm3Finalize_of_final {s : State} (hf : s.sm3.final = true) :
    exec .sm3Finalize s = .next (s.raise .sm3 .sequence) := by
  show Host.Outcome.next s.finalizeOf = _
  rw [State.finalizeOf, finalizeRule_final hf]

/-- Settles O23: the counter after ABSORB is the counter after counting its bytes, half by half and as one 64-bit number. -/
theorem byteCounterCarries : Obligations.ByteCounterCarries := by
  intro s nb hnb hf
  refine ⟨_, exec_sm3Absorb_of_not_final hnb hf, ?_⟩
  obtain ⟨hlo, hhi⟩ := s.sm3.absorbBytes_counter (windowBytes s.sm3.din nb)
  rw [windowBytes_length] at hlo hhi
  simp only [State.withSm3_sm3, Sm3.cnt, Sm3.finish_ok_cntLo, Sm3.finish_ok_cntHi, hlo, hhi]
  refine ⟨s.sm3.countBytes_cntLo_toNat nb, s.sm3.countBytes_cntHi_toNat nb, ?_, fun hhigh hlow hthree => ?_⟩
  · calc (s.sm3.countBytes nb).cnt.toNat = (s.sm3.cnt + BitVec.ofNat 64 nb).toNat := by rw [s.sm3.countBytes_cnt nb]
      _ = (s.sm3.cnt.toNat + nb) % 2 ^ 64 := by rw [BitVec.toNat_add, BitVec.toNat_ofNat, Nat.add_mod_mod]
  · subst hthree
    constructor <;> apply BitVec.eq_of_toNat_eq
    · rw [s.sm3.countBytes_cntHi_toNat 3, hhigh, hlow]
      decide
    · rw [s.sm3.countBytes_cntLo_toNat 3, hlow]
      decide

/-! ## What a step can do to the SM3 unit -/

/-- One step's effect on the SM3 unit: nothing, a reset, a host write (dropped, to `DIN`, or a command issued), or the completion
of the word in flight (20_memory.md R66; 30_encoding.md R98; 70_reset_and_hazards.md R260, R261, R264). -/
inductive Sm3.Move (u : Sm3) : Sm3 → Prop
  | stay : Move u u
  | hardReset : Move u .reset
  | unitReset : Move u u.unitReset
  | dropWrite (hbusy : u.busy = true) : Move u { u with ovr := true }
  | setDin (hidle : u.busy = false) (i : Fin 16) (v : Word) : Move u { u with din := u.din.set i v }
  | issue (hidle : u.busy = false) {v : Word} (hv : v ≠ resetWord) : Move u { u with pend := v, busy := true }
  | illegal (hbusy : u.busy = true) {e : DecodeError} (hd : decode .sm3 u.pend = .error e) :
      Move u (u.finish (.error .illegalCmd))
  | absorb (hbusy : u.busy = true) {nb : Nat} (hnb : nb ≤ 64) (hd : decode .sm3 u.pend = .ok (.sm3Absorb nb)) :
      Move u (u.finish (u.absorbRule nb))
  | finalize (hbusy : u.busy = true) (hd : decode .sm3 u.pend = .ok .sm3Finalize) (junk : Vector Byte 64) :
      Move u (u.finish (u.finalizeRule junk))

/-- FINALIZE's effect on the unit is its rule's, with some value left in `BUF`. -/
theorem finalizeOf_sm3 (s : State) :
    s.finalizeOf.sm3 = s.sm3.finish (s.sm3.finalizeRule (Config.bufAfterFinalize s.free)) := by
  unfold State.finalizeOf
  cases s.sm3.finalizeRule (Config.bufAfterFinalize s.free) <;> rfl

/-- A write to either unit's register moves the SM3 unit by a dropped write, a write to `DIN`, an issue, its reset, or not at
all. -/
theorem writeReg_sm3_move {r : Reg} {v : Word} {s t : State} (h : s.writeReg r v = .next t) : s.sm3.Move t.sm3 := by
  cases hr : r.unit with
  | sm2 =>
    rw [writeReg_sm3_of_sm2 hr h]
    exact .stay
  | sm3 =>
    have hcases := writeReg_cases h
    rw [hr] at hcases
    rcases hcases with ⟨-, hbusy, rfl⟩ | ⟨-, hidle, rfl⟩ | ⟨-, -, hreset⟩ | ⟨-, -, hbusy, rfl⟩ | ⟨-, hv, hidle, rfl⟩
    · exact .dropWrite hbusy
    · cases r with
      | sm3Din i => exact .setDin hidle i v
      | sm3Cmd | sm3Status | sm3Fill | sm3CntLo | sm3CntHi | sm3V i => exact .stay
      | _ => cases hr
    · cases hreset
      exact .unitReset
    · exact .dropWrite hbusy
    · exact .issue hidle hv

/-- The host's turn moves the SM3 unit by its writes only: no read has a side effect (20_memory.md R65). -/
theorem hostTurn_sm3_move {s t : State} (h : hostTurn s = .next t) : s.sm3.Move t.sm3 := by
  rcases hostTurn_cases h with ⟨-, rfl⟩ | ⟨r, p, rfl⟩ | ⟨-, -, v, rest, r, -, -, hwrite⟩
  · exact .stay
  · rw [State.readReg_sm3, State.withProgram_sm3]
    exact .stay
  · exact writeReg_sm3_move (s := s.withProgram rest) hwrite

/-- The SM3 unit's turn moves it by the completion of the word in flight (30_encoding.md R98). -/
theorem completeUnit_sm3_move {s t : State} (h : completeUnit .sm3 s = .next t) : s.sm3.Move t.sm3 := by
  rcases completeUnit_cases h with ⟨-, rfl⟩ | ⟨hbusy, e, hd, rfl⟩ | ⟨hbusy, i, hd, hexec⟩
  · exact .stay
  · exact .illegal hbusy hd
  · obtain ⟨hunit, hwf, -⟩ := decode_ok hd
    cases i with
    | sm3Reset =>
      cases hexec
      exact .unitReset
    | sm3Absorb nb =>
      cases hexec
      exact .absorb hbusy (of_decide_eq_true hwf) hd
    | sm3Finalize =>
      cases hexec
      rw [finalizeOf_sm3]
      exact .finalize hbusy hd _
    | _ => cases hunit

/-- The SM2 unit's turn leaves the SM3 unit (00_scope.md R3). -/
theorem completeUnit_sm2_sm3 {s t : State} (h : completeUnit .sm2 s = .next t) : t.sm3 = s.sm3 := by
  rcases completeUnit_cases h with ⟨-, rfl⟩ | ⟨-, -, -, rfl⟩ | ⟨-, i, hd, hexec⟩
  · rfl
  · rfl
  · obtain ⟨u, a, hshape⟩ := exec_sm2_shape (decode_ok hd).1 s
    cases hshape.symm.trans hexec
    rfl

/-- Of the agents only the host, the SM3 unit itself and the reset input move the SM3 unit. -/
theorem takeTurn_sm3_move {a : Agent} {s t : State} (h : takeTurn a s = .next t) : s.sm3.Move t.sm3 := by
  cases a with
  | host => exact hostTurn_sm3_move h
  | sm3 => exact completeUnit_sm3_move h
  | sm2 =>
    rw [completeUnit_sm2_sm3 h]
    exact .stay
  | rng =>
    cases h
    exact .stay
  | resetPin =>
    cases h
    exact .hardReset

/-- Every step's effect on the SM3 unit is one of those moves. -/
theorem step_sm3_move {s t : State} (h : step s = .next t) : s.sm3.Move t.sm3 := by
  rcases step_cases s with ⟨a, rest, -, hstep⟩ | ⟨-, hstep⟩
  · exact takeTurn_sm3_move (s := s.withTurns rest) (hstep.symm.trans h)
  · exact takeTurn_sm3_move (s := s.tick) (hstep.symm.trans h)

/-- Of the moves only the two resets clear FINAL: no other writes it but the commands' rules, and these fail while it is 1. -/
theorem Sm3.Move.final_or_reset {u u' : Sm3} (hmove : u.Move u') (hf : u.final = true) :
    u'.final = true ∨ u' = u.unitReset ∨ u' = .reset := by
  cases hmove with
  | hardReset => exact .inr (.inr rfl)
  | unitReset => exact .inr (.inl rfl)
  | absorb _ hnb _ =>
    rw [absorbRule_final hnb hf]
    exact .inl hf
  | finalize _ _ junk =>
    rw [finalizeRule_final hf]
    exact .inl hf
  | stay | dropWrite | setDin | issue | illegal => exact .inl hf

/-- Settles O25: both commands raise `SEQUENCE`, and the moves of a step that keep FINAL are all but the resets. -/
theorem sequenceRuleAfterFinalize : Obligations.SequenceRuleAfterFinalize :=
  ⟨fun _ _ hnb hf => exec_sm3Absorb_of_final hnb hf, fun _ hf => exec_sm3Finalize_of_final hf,
    fun _ _ hf hstep => (step_sm3_move hstep).final_or_reset hf⟩

/-! ## The bytes of the digest (R117) -/

/-- The number of a byte is four times its word's number and its place in the word, from the top. -/
theorem digestByte_of_word {v : Vector Word 8} {i b : Nat} (hi : i < 8) (hb : b < 4) :
    digestByte v (4 * i + b) = v[i].extractLsb' (24 - 8 * b) 8 := by
  have hword : (4 * i + b) / 4 = i := by omega
  have hplace : (4 * i + b) % 4 = b := by omega
  rw [digestByte, hword, hplace, Vector.getElem?_eq_getElem hi, Option.getD_some]

/-- The bytes of the digest, by number. -/
theorem digestBytes_getD_of_word {v : Vector Word 8} {i b : Nat} (hi : i < 8) (hb : b < 4) :
    (digestBytes v).getD (4 * i + b) 0 = v[i].extractLsb' (24 - 8 * b) 8 := by
  rw [← digestByte_of_word hi hb]
  simp [digestBytes, show 4 * i + b < 32 by omega]

/-- Settles O28: byte by byte for the digest, and the four bytes of a word put together again for the register. -/
theorem digestBytesMostSignificantFirst : Obligations.DigestBytesMostSignificantFirst := by
  refine ⟨fun v => ⟨by simp [digestBytes], fun i b => digestBytes_getD_of_word i.isLt b.isLt⟩, fun s i => ?_⟩
  have byte {b : Nat} (hb : b < 4) := digestBytes_getD_of_word (v := s.sm3.v) i.isLt hb
  have top : (digestBytes s.sm3.v).getD (4 * i.val) 0 = s.sm3.v[i.val].extractLsb' 24 8 := byte (b := 0) (by decide)
  rw [top, byte (by decide : 1 < 4), byte (by decide : 2 < 4), byte (by decide : 3 < 4)]
  exact (be32_extractLsb' s.sm3.v[i.val]).symm

/-! ## Folding a message that grows (R110) -/

/-- The bytes of a message behind its last full block. -/
def partialBlock (m : List Byte) : List Byte := m.drop (64 * (m.length / 64))

theorem partialBlock_length (m : List Byte) : (partialBlock m).length = m.length % 64 := by
  rw [partialBlock, List.length_drop]
  omega

/-- Behind the full blocks of the shorter message stand its last bytes and the new ones. -/
theorem drop_append_of_fullBlocks (m x : List Byte) : (m ++ x).drop (64 * (m.length / 64)) = partialBlock m ++ x :=
  List.drop_append_of_le_length (Nat.mul_div_le m.length 64)

/-- New bytes that fill no block do not change the fold. -/
theorem foldBlocks_append_of_lt {m x : List Byte} (h : m.length % 64 + x.length < 64) :
    foldBlocks (m ++ x) = foldBlocks m ∧ partialBlock (m ++ x) = partialBlock m ++ x := by
  have hblocks : (m ++ x).length / 64 = m.length / 64 := by rw [List.length_append]; omega
  constructor
  · rw [foldBlocks, hblocks]
    exact compressChunks_append _ Config.iv m x (Nat.mul_div_le m.length 64)
  · rw [partialBlock, hblocks, drop_append_of_fullBlocks]

/-- New bytes that fill one block add one compression to the fold. -/
theorem foldBlocks_append_of_ge {m x : List Byte} (h : 64 ≤ m.length % 64 + x.length) (hx : x.length ≤ 64) :
    foldBlocks (m ++ x) = compress (foldBlocks m) (blockOf ((partialBlock m ++ x).take 64)) ∧
      partialBlock (m ++ x) = (partialBlock m ++ x).drop 64 := by
  have hblocks : (m ++ x).length / 64 = m.length / 64 + 1 := by rw [List.length_append]; omega
  constructor
  · rw [foldBlocks, hblocks, compressChunks_add, drop_append_of_fullBlocks,
      compressChunks_append _ Config.iv m x (Nat.mul_div_le m.length 64)]
    rfl
  · rw [partialBlock, hblocks, ← drop_append_of_fullBlocks, List.drop_drop]
    rfl

/-! ## What the unit is after a message -/

/-- The unit, not final, stands where the message `m` puts it, in whatever pieces it came (R110): its full blocks are folded into
`V`, the rest is pending, and `CNT` is its length. -/
structure Sm3.Absorbed (u : Sm3) (m : List Byte) : Prop where
  final : u.final = false
  fill : u.fill = m.length % 64
  v : u.v = foldBlocks m
  pending : u.pendingBytes = partialBlock m
  cnt : u.cnt = BitVec.ofNat 64 m.length

/-- A reset unit has absorbed the empty message (R111). -/
theorem Sm3.unitReset_absorbed (u : Sm3) : u.unitReset.Absorbed [] := by
  have hcnt : (0 : Word) ++ (0 : Word) = BitVec.ofNat 64 0 := by decide
  exact ⟨rfl, rfl, rfl, rfl, hcnt⟩

/-- `absorb(bytes)` appends its bytes to the message. -/
theorem Sm3.Absorbed.absorbBytes {u : Sm3} {m x : List Byte} (h : u.Absorbed m) (hx : x.length ≤ 64) :
    (u.absorbBytes x).Absorbed (m ++ x) := by
  obtain ⟨hfinal, hfill, hv, hpending, hcnt⟩ := h
  obtain ⟨hfinal', -⟩ := absorbBytes_frame u x
  obtain ⟨hcnt', hshort, hlong⟩ := Sm3.absorbBytes_spec (u := u) (m := x) (by omega) hx
  have hlen : (m ++ x).length = m.length + x.length := List.length_append
  have count : (u.absorbBytes x).cnt = BitVec.ofNat 64 (m ++ x).length := by
    rw [hcnt', hcnt, hlen, BitVec.ofNat_add]
  by_cases hlt : u.fill + x.length < 64
  · obtain ⟨hfill', hv', hpending'⟩ := hshort hlt
    obtain ⟨hfold, hpart⟩ := foldBlocks_append_of_lt (m := m) (x := x) (hfill ▸ hlt)
    exact ⟨hfinal'.trans hfinal, by omega, by rw [hv', hv, hfold], by rw [hpending', hpending, hpart], count⟩
  · obtain ⟨hfill', hv', hpending'⟩ := hlong (Nat.le_of_not_lt hlt)
    obtain ⟨hfold, hpart⟩ := foldBlocks_append_of_ge (m := m) (x := x) (hfill ▸ Nat.le_of_not_lt hlt) hx
    exact ⟨hfinal'.trans hfinal, by omega, by rw [hv', hv, hpending, hfold], by rw [hpending', hpending, hpart], count⟩

/-- ABSORB of a piece, its window filled by the host first, appends the piece to the message (R112). -/
theorem exec_sm3Absorb_absorbed {s : State} {m : List Byte} (h : s.sm3.Absorbed m) (win : Vector Word 16) {nb : Nat}
    (hnb : nb ≤ 64) :
    ∃ t, exec (.sm3Absorb nb) (s.withSm3 { s.sm3 with din := win }) = .next t ∧ t.sm3.Absorbed (m ++ windowBytes win nb) := by
  have hloaded : Sm3.Absorbed { s.sm3 with din := win } m := ⟨h.final, h.fill, h.v, h.pending, h.cnt⟩
  obtain ⟨hfinal, hfill, hv, hpending, hcnt⟩ := hloaded.absorbBytes (x := windowBytes win nb) (by simpa using hnb)
  exact ⟨_, exec_sm3Absorb_of_not_final hnb h.final, ⟨hfinal, hfill, hv, hpending, hcnt⟩⟩

/-- The ABSORBs of a run of commands all complete, and FINALIZE comes to a unit that has absorbed the whole message. -/
theorem hashRun_absorbed {ps : List (Vector Word 16 × Nat)} (hps : ∀ p ∈ ps, p.2 ≤ 64) {s : State} {m : List Byte}
    (h : s.sm3.Absorbed m) : ∃ a, hashRun s ps = exec .sm3Finalize a ∧ a.sm3.Absorbed (m ++ messageOf ps) := by
  induction ps generalizing s m with
  | nil => exact ⟨s, rfl, by rwa [messageOf, List.flatMap_nil, List.append_nil]⟩
  | cons p rest ih =>
    obtain ⟨hp, hrest⟩ := List.forall_mem_cons.1 hps
    obtain ⟨t, ht, habsorbed⟩ := exec_sm3Absorb_absorbed h p.1 hp
    obtain ⟨a, ha, hall⟩ := ih hrest habsorbed
    refine ⟨a, ?_, ?_⟩
    · rw [hashRun, ht]
      exact ha
    · rwa [messageOf, List.flatMap_cons, ← List.append_assoc]

/-- The digest is a function of `V`, `FILL`, the pending bytes and `CNT`, and these are the message's: two units that have absorbed
it finalize to the same digest (R115). -/
theorem Sm3.Absorbed.finalDigest_unique {u u' : Sm3} {m : List Byte} (h : u.Absorbed m) (h' : u'.Absorbed m) :
    u.finalDigest = u'.finalDigest := by
  simp only [Sm3.finalDigest, Sm3.padFirst, Sm3.bitLength_eq, h.fill, h.v, h.pending, h.cnt, h'.fill, h'.v, h'.pending, h'.cnt]

/-- From SM3.RESET a run of commands answers a next state with the digest and the count of a unit that has absorbed the message. -/
theorem hashRun_after_reset (s : State) {ps : List (Vector Word 16 × Nat)} (hps : ∀ p ∈ ps, p.2 ≤ 64) :
    ∃ a t u, exec .sm3Reset s = .next a ∧ hashRun a ps = .next t ∧ Sm3.Absorbed u (messageOf ps) ∧
      t.sm3.v = u.finalDigest ∧ t.sm3.cnt = u.cnt := by
  obtain ⟨b, hrun, hb⟩ := hashRun_absorbed hps (s := s.withSm3 s.sm3.unitReset) s.sm3.unitReset_absorbed
  exact ⟨_, _, b.sm3, rfl, hrun.trans (exec_sm3Finalize_of_not_final hb.final), hb, rfl, rfl⟩

/-- Settles O29: each run ends with the digest and the count of a unit that has absorbed the one message. -/
theorem digestDoesNotDependOnSplit : Obligations.DigestDoesNotDependOnSplit := by
  intro s s' ps qs hps hqs hmessage
  obtain ⟨a, t, u, hreset, hrun, habsorbed, hv, hcnt⟩ := hashRun_after_reset s hps
  obtain ⟨a', t', u', hreset', hrun', habsorbed', hv', hcnt'⟩ := hashRun_after_reset s' hqs
  rw [← hmessage] at habsorbed'
  refine ⟨a, a', t, t', hreset, hreset', hrun, hrun', ?_, ?_⟩
  · rw [hv, hv', habsorbed.finalDigest_unique habsorbed']
  · rw [hcnt, hcnt', habsorbed.cnt, habsorbed'.cnt]

end Sys2Proof.Machine

/-! The words of the message expansion: those there are stay, and each further one is made of the words before it
(41_sm3_compression.md R141, R144). -/

namespace Sys2Proof.Machine

theorem parseBlock_length (b : Vector Byte 64) : (parseBlock b).length = 16 := by
  rw [parseBlock, List.length_map, List.length_finRange]

theorem parseBlock_getD (b : Vector Byte 64) (i : Fin 16) : (parseBlock b).getD i.val 0 =
    be32 (b[4 * i.val]'(by omega)) (b[4 * i.val + 1]'(by omega)) (b[4 * i.val + 2]'(by omega)) (b[4 * i.val + 3]'(by omega)) := by
  rw [List.getD_eq_getElem _ _ (by rw [parseBlock_length]; exact i.isLt)]
  simp only [parseBlock, List.getElem_map, List.getElem_finRange, Fin.val_cast]

theorem expandBy_length (n : Nat) (w : List Word) : (expandBy n w).length = w.length + n := by
  induction n generalizing w with
  | zero => rfl
  | succ n ih =>
    rw [expandBy, ih, List.length_append, List.length_singleton]
    omega

theorem prefix_expandBy (n : Nat) (w : List Word) : w <+: expandBy n w := by
  induction n generalizing w with
  | zero => exact List.prefix_rfl
  | succ n ih => exact (List.prefix_append w [nextWord w]).trans (ih _)

theorem expandBy_getD_of_lt (n : Nat) {w : List Word} {i : Nat} (h : i < w.length) :
    (expandBy n w).getD i 0 = w.getD i 0 := by
  obtain ⟨t, ht⟩ := prefix_expandBy n w
  rw [← ht, List.getD_append _ _ _ _ h]

/-- A word added is `nextWord` of the words before it, which no later word changes: "each reads only words with smaller index". -/
theorem expandBy_getD_of_ge {n : Nat} {w : List Word} {i : Nat} (h : w.length ≤ i) (hi : i < w.length + n) :
    (expandBy n w).getD i 0 = nextWord ((expandBy n w).take i) := by
  induction n generalizing w with
  | zero => omega
  | succ n ih =>
    have hlen : (w ++ [nextWord w]).length = w.length + 1 := List.length_append
    rcases Nat.eq_or_lt_of_le h with rfl | hlt
    · have htake : (expandBy (n + 1) w).take w.length = w := (List.prefix_iff_eq_take.1 (prefix_expandBy (n + 1) w)).symm
      rw [htake, expandBy, expandBy_getD_of_lt n (by omega), List.getD_append_right _ _ _ _ le_rfl, Nat.sub_self]
      rfl
    · exact ih (by omega) (by omega)

/-- `nextWord` of the first `i` words reads them where they stand in the whole list. -/
theorem nextWord_take {w : List Word} {i : Nat} (h : 16 ≤ i) (hi : i ≤ w.length) : nextWord (w.take i) =
    p1 (w.getD (i - 16) 0 ^^^ w.getD (i - 9) 0 ^^^ rotl (w.getD (i - 3) 0) 15)
      ^^^ rotl (w.getD (i - 13) 0) 7 ^^^ w.getD (i - 6) 0 := by
  have word {k : Nat} (hk : 0 < k) : (w.take i).getD (i - k) 0 = w.getD (i - k) 0 := by
    rw [List.getD_eq_getElem?_getD, List.getD_eq_getElem?_getD, List.getElem?_take_of_lt (by omega)]
  have hlen : (w.take i).length = i := List.length_take_of_le hi
  simp only [nextWord, hlen, word (k := 16) (by decide), word (k := 13) (by decide), word (k := 9) (by decide),
    word (k := 6) (by decide), word (k := 3) (by decide)]

theorem expand_length (b : Vector Byte 64) : (expand b).length = 68 := by
  rw [expand, expandBy_length, parseBlock_length]

/-- Settles O26: the parsed words stay in front, and each word after them is `nextWord` of those before it. -/
theorem expansionFollowsRecurrence : Obligations.ExpansionFollowsRecurrence := by
  intro b
  have hparse := parseBlock_length b
  refine ⟨expand_length b, fun i => ?_, fun i h16 h67 => ?_⟩
  · rw [expand, expandBy_getD_of_lt 52 (by omega), parseBlock_getD]
  · have hnext : (expand b).getD i 0 = nextWord ((expand b).take i) := expandBy_getD_of_ge (by omega) (by omega)
    rw [hnext, nextWord_take h16 (by rw [expand_length]; omega)]

end Sys2Proof.Machine

/-! The points of a capability under the group premises of 43_ec_muladd.md R211, and what the simultaneous routine computes
over them. -/

namespace Sys2Proof

/-! ## The points as a commutative monoid -/

/-- The points of the capability. -/
abbrev Curve.Point (c : Curve) : Type := {P : Pt // c.IsPoint P}

/-- Under the premises of R211 the points are a commutative monoid in Mathlib's sense, with `ec_mul` as its multiple. -/
@[reducible] def Curve.IsGroup.pointMonoid {c : Curve} (hg : c.IsGroup) (hl : c.Lawful) : AddCommMonoid c.Point where
  zero := ⟨c.inf, hl.inf_point⟩
  add P Q := ⟨c.ecAdd P.1 Q.1, hl.add_point _ _ P.2 Q.2⟩
  nsmul k P := ⟨c.ecMul k P.1, hl.mul_point _ _ P.2⟩
  add_assoc P Q R := Subtype.ext (hg.add_assoc _ _ _ P.2 Q.2 R.2)
  zero_add P := Subtype.ext (hl.inf_add _ P.2)
  add_zero P := Subtype.ext (hl.add_inf _ P.2)
  add_comm P Q := Subtype.ext (hg.add_comm _ _ P.2 Q.2)
  nsmul_zero P := Subtype.ext (hg.mul_zero _ P.2)
  nsmul_succ k P := Subtype.ext (hg.mul_succ k _ P.2)

section
variable {c : Curve} (hg : c.IsGroup) (hl : c.Lawful) {P : Pt} (hP : c.IsPoint P)
include hg hl hP

theorem Curve.IsGroup.ecMul_one : c.ecMul 1 P = P :=
  let _ := hg.pointMonoid hl
  congrArg Subtype.val (one_nsmul (⟨P, hP⟩ : c.Point))

theorem Curve.IsGroup.ecMul_add (k l : Nat) : c.ecMul (k + l) P = c.ecAdd (c.ecMul k P) (c.ecMul l P) :=
  let _ := hg.pointMonoid hl
  congrArg Subtype.val (add_nsmul (⟨P, hP⟩ : c.Point) k l)

theorem Curve.IsGroup.ecMul_mul (k l : Nat) : c.ecMul (k * l) P = c.ecMul k (c.ecMul l P) :=
  let _ := hg.pointMonoid hl
  congrArg Subtype.val (mul_nsmul' (⟨P, hP⟩ : c.Point) k l)

theorem Curve.IsGroup.ecMul_mod {n : Nat} (hn : c.ecMul n P = c.inf) (k : Nat) : c.ecMul (k % n) P = c.ecMul k P :=
  let _ := hg.pointMonoid hl
  (congrArg Subtype.val (nsmul_eq_mod_nsmul (a := (⟨P, hP⟩ : c.Point)) k (Subtype.ext hn))).symm

end

theorem Curve.IsGroup.ecAdd_ecAdd_ecAdd_comm {c : Curve} (hg : c.IsGroup) (hl : c.Lawful) {P Q R S : Pt} (hP : c.IsPoint P)
    (hQ : c.IsPoint Q) (hR : c.IsPoint R) (hS : c.IsPoint S) :
    c.ecAdd (c.ecAdd P Q) (c.ecAdd R S) = c.ecAdd (c.ecAdd P R) (c.ecAdd Q S) :=
  let _ := hg.pointMonoid hl
  congrArg Subtype.val (add_add_add_comm (⟨P, hP⟩ : c.Point) ⟨Q, hQ⟩ ⟨R, hR⟩ ⟨S, hS⟩)

/-- Multiples of `G` depend on the scalar modulo `N` only. -/
theorem Curve.IsGroup.ecMul_base_congr {c : Curve} (hg : c.IsGroup) (hl : c.Lawful) {k l : Nat} (h : k ≡ l [MOD c.N]) :
    c.ecMul k c.G = c.ecMul l c.G := by
  rw [← hg.ecMul_mod hl hl.base_point hl.base_order k, h, hg.ecMul_mod hl hl.base_point hl.base_order l]

/-! ## Sums of two multiples -/

/-- `k·P + l·Q`. -/
def Curve.sumOfMultiples (c : Curve) (P Q : Pt) (k l : Nat) : Pt := c.ecAdd (c.ecMul k P) (c.ecMul l Q)

theorem Curve.Lawful.sumOfMultiples_point {c : Curve} (hl : c.Lawful) {P Q : Pt} (hP : c.IsPoint P) (hQ : c.IsPoint Q)
    (k l : Nat) : c.IsPoint (c.sumOfMultiples P Q k l) :=
  hl.add_point _ _ (hl.mul_point _ _ hP) (hl.mul_point _ _ hQ)

theorem Curve.IsGroup.add_sumOfMultiples {c : Curve} (hg : c.IsGroup) (hl : c.Lawful) {P Q : Pt} (hP : c.IsPoint P)
    (hQ : c.IsPoint Q) (k l k' l' : Nat) :
    c.ecAdd (c.sumOfMultiples P Q k l) (c.sumOfMultiples P Q k' l') = c.sumOfMultiples P Q (k + k') (l + l') := by
  have pointP (n : Nat) : c.IsPoint (c.ecMul n P) := hl.mul_point n P hP
  have pointQ (n : Nat) : c.IsPoint (c.ecMul n Q) := hl.mul_point n Q hQ
  unfold Curve.sumOfMultiples
  rw [hg.ecMul_add hl hP, hg.ecMul_add hl hQ, hg.ecAdd_ecAdd_ecAdd_comm hl (pointP k) (pointQ l) (pointP k') (pointQ l')]

namespace Machine

/-! ## The simultaneous routine (43_ec_muladd.md R210) -/

theorem bitOf_eq_zero_or_one (k i : Nat) : bitOf k i = 0 ∨ bitOf k i = 1 := Nat.mod_two_eq_zero_or_one _

/-- Bit `i` is the last bit of what is left of the scalar above it. -/
theorem shiftRight_eq_add_bitOf (k i : Nat) : k >>> i = k >>> (i + 1) + k >>> (i + 1) + bitOf k i := by
  rw [Nat.shiftRight_succ, bitOf]
  omega

section
variable {c : Curve} (hg : c.IsGroup) (hl : c.Lawful) {P Q : Pt} (hP : c.IsPoint P) (hQ : c.IsPoint Q)
include hg hl hP hQ

/-- A pass doubles and adds the multiples its two bits name. -/
theorem shamirPass_eq (k l i : Nat) {R : Pt} (hR : c.IsPoint R) :
    shamirPass c k l P Q (c.ecAdd P Q) i R = c.ecAdd (c.ecDbl R) (c.sumOfMultiples P Q (bitOf k i) (bitOf l i)) := by
  have h0 {S : Pt} (hS : c.IsPoint S) : c.ecMul 0 S = c.inf := hg.mul_zero S hS
  have h1 {S : Pt} (hS : c.IsPoint S) : c.ecMul 1 S = S := hg.ecMul_one hl hS
  unfold shamirPass Curve.sumOfMultiples
  rcases bitOf_eq_zero_or_one k i with hbk | hbk <;> rcases bitOf_eq_zero_or_one l i with hbl | hbl
  · simp [hbk, hbl, h0 hP, h0 hQ, hl.add_inf _ hl.inf_point, hl.add_inf _ (hl.dbl_point R hR)]
  · simp [hbk, hbl, h0 hP, h1 hQ, hl.inf_add Q hQ]
  · simp [hbk, hbl, h1 hP, h0 hQ, hl.add_inf P hP]
  · simp [hbk, hbl, h1 hP, h1 hQ]

/-- Before the pass for bit `i - 1` the accumulator is the sum for the scalars' bits from `i` up. -/
theorem shamirLoop_eq (k l i : Nat) :
    shamirLoop c k l P Q (c.ecAdd P Q) i (c.sumOfMultiples P Q (k >>> i) (l >>> i)) = c.sumOfMultiples P Q k l := by
  induction i with
  | zero => rfl
  | succ i ih =>
    have hR := hl.sumOfMultiples_point hP hQ (k >>> (i + 1)) (l >>> (i + 1))
    rw [shamirLoop, shamirPass_eq hg hl hP hQ k l i hR, hg.dbl_eq _ hR, hg.add_sumOfMultiples hl hP hQ,
      hg.add_sumOfMultiples hl hP hQ, ← shiftRight_eq_add_bitOf, ← shiftRight_eq_add_bitOf, ih]

/-- The routine computes `k·P + l·Q` (R211). -/
theorem shamir_eq_sumOfMultiples (k l : Nat) : shamir c k P l Q = c.sumOfMultiples P Q k l := by
  have high {a b : Nat} (h : bitlen a ≤ b) : a >>> b = 0 := Nat.shiftRight_eq_zero a b (lt_two_pow_of_bitlen_le h)
  have hloop := shamirLoop_eq hg hl hP hQ k l (max (bitlen k) (bitlen l))
  rwa [high (le_max_left _ _), high (le_max_right _ _), Curve.sumOfMultiples, hg.mul_zero P hP, hg.mul_zero Q hQ,
    hl.inf_add _ hl.inf_point] at hloop

end

end Machine

end Sys2Proof

/-! The SM2 signer (42_sm2_signer.md): what SIGN reads, writes and leaves, what VERIFY's verdict says, and that what SIGN
signed VERIFY accepts. -/

namespace Sys2Proof.Machine

/-! ## SIGN (R182) -/

/-- A SIGN completed with the signature and the answers left that the loop gives. -/
def State.signed (s : State) (x : (Nat × Nat) × List Nat) : State :=
  (s.withAnswers x.2).withSm2 (s.sm2.finish
    (.ok { s.sm2 with rs0 := BitVec.ofNat 512 x.1.1, rs1 := BitVec.ofNat 512 x.1.2, eacc := 0 }))

/-- SIGN in terms of what it reads: `MODE`, `D`, `EACC` and the answers. -/
theorem signOf_eq (c : Curve) (s : State) :
    s.signOf c =
      if s.sm2.mode ≠ .sign then s.raise .sm2 .modeErr
      else if (s.sm2.d + 1) % c.N = 0 then s.raise .sm2 .noInverse
      else (signLoop c s.sm2.d s.sm2.eacc s.answers).elim (s.withAnswers []) s.signed := by
  unfold State.signOf Sm2.mode Sm2.d
  cases s.sm2.key with
  | empty => rfl
  | verifying q => rfl
  | signing d q =>
    simp only [Key.mode_signing, Key.d, ne_eq, not_true_eq_false, if_false]
    cases signLoop c d s.sm2.eacc s.answers <;> rfl

/-- SIGN writes `RS0`, `RS1`, `EACC`, `ERR`, `BUSY` and the answers only (R186). -/
theorem signOf_frame (c : Curve) (s : State) :
    s.signOf c = { s with answers := (s.signOf c).answers, sm2 := { s.sm2 with
      rs0 := (s.signOf c).sm2.rs0, rs1 := (s.signOf c).sm2.rs1, eacc := (s.signOf c).sm2.eacc,
      err := (s.signOf c).sm2.err, busy := (s.signOf c).sm2.busy } } := by
  rw [signOf_eq]
  split
  · rfl
  · split
    · rfl
    · cases signLoop c s.sm2.d s.sm2.eacc s.answers <;> rfl

/-- The unit with other values where SIGN does not look: `OP0`, `OP1`, `MSG`, `PT0`, `PT1`, and `Q` within the key. -/
def Sm2.withUnread (u : Sm2) (key : Key) (a b : BitVec 512) (m : Vector Word 16) (p p' : BitVec 1024) : Sm2 :=
  { u with key := key, op0 := a, op1 := b, msg := m, pt0 := p, pt1 := p' }

/-- With the same `MODE` and `D`, values that SIGN does not read come out of it as they went in, and nothing else differs
(R186). -/
theorem signOf_withUnread (c : Curve) (s : State) {key : Key} (hmode : key.mode = s.sm2.mode) (hd : key.d = s.sm2.d)
    (a b : BitVec 512) (m : Vector Word 16) (p p' : BitVec 1024) :
    (s.withSm2 (s.sm2.withUnread key a b m p p')).signOf c =
      (s.signOf c).withSm2 ((s.signOf c).sm2.withUnread key a b m p p') := by
  have hmode' : (s.sm2.withUnread key a b m p p').mode = s.sm2.mode := hmode
  have hd' : (s.sm2.withUnread key a b m p p').d = s.sm2.d := hd
  have heacc : (s.sm2.withUnread key a b m p p').eacc = s.sm2.eacc := rfl
  rw [signOf_eq, signOf_eq, State.withSm2_sm2, State.withSm2_answers, hmode', hd', heacc]
  split
  · rfl
  · split
    · rfl
    · cases signLoop c s.sm2.d s.sm2.eacc s.answers <;> rfl

/-- A SIGN that takes a busy unit to idle without error is one whose loop accepted an answer. -/
theorem signOf_completed {c : Curve} {s : State} (hbusy : s.sm2.busy = true) (hidle : (s.signOf c).sm2.busy = false)
    (hok : (s.signOf c).sm2.err = .ok) :
    (s.sm2.d + 1) % c.N ≠ 0 ∧ ∃ k r t rest, signPass c s.sm2.d s.sm2.eacc k = some (r, t) ∧
      s.signOf c = s.signed ((r, t), rest) := by
  rw [signOf_eq] at hidle hok ⊢
  split at hok
  · cases hok
  · rename_i hmode
    split at hok
    · cases hok
    · rename_i hinv
      rw [if_neg hmode, if_neg hinv] at hidle ⊢
      refine ⟨hinv, ?_⟩
      rcases signLoop_cases c s.sm2.d s.sm2.eacc s.answers with
        ⟨hnone, -⟩ | ⟨-, k, post, ⟨r, t⟩, -, -, hpass, hsome⟩
      · rw [hnone] at hidle
        exact absurd hbusy (Bool.eq_false_iff.1 hidle)
      · exact ⟨k, r, t, post, hpass, by rw [hsome]; rfl⟩

/-- Over a lawful capability the result windows hold the signature's two numbers. -/
theorem signed_toNat {c : Curve} (hl : c.Lawful) (s : State) {r t : Nat} (hr : r < c.N) (ht : t < c.N) (rest : List Nat) :
    (s.signed ((r, t), rest)).sm2.rs0.toNat = r ∧ (s.signed ((r, t), rest)).sm2.rs1.toNat = t :=
  ⟨toNat_ofNat_of_lt_order hl hr, toNat_ofNat_of_lt_order hl ht⟩

/-- Settles O38: what the accepting pass of the loop gives is in range, and fits its window. -/
theorem signatureIsInRange : Obligations.SignatureIsInRange := by
  intro s t hexec hbusy hidle hok
  obtain rfl : s.signOf Config.curve = t := Host.Outcome.next.inj hexec
  obtain ⟨hinv, k, r, t, rest, hpass, hsigned⟩ := signOf_completed hbusy hidle hok
  obtain ⟨-, hr1, hr, ht1, ht⟩ := signPass_signature Config.curve_lawful.order_prime hinv hpass
  obtain ⟨hrs0, hrs1⟩ := signed_toNat Config.curve_lawful s hr ht rest
  rw [hsigned, hrs0, hrs1]
  omega

/-- Settles O39: the two runs differ in the values SIGN does not read, and one run's writes are those of the frame. -/
theorem signTouchesNothingElse : Obligations.SignTouchesNothingElse := by
  intro s key a b m p p' hmode hd
  have hrun := signOf_withUnread Config.curve s hmode hd a b m p p'
  exact ⟨_, _, rfl, congrArg Host.Outcome.next hrun, rfl, rfl, signOf_frame Config.curve s⟩

/-! ## VERIFY (R188) -/

/-- VERIFY on a unit with a key. -/
theorem verifyRule_of_key {c : Curve} {u : Sm2} {q : Pt} (hq : u.q = some q) :
    u.verifyRule c = .ok { u with valid := verifySignature c q u.eacc u.op0.toNat u.op1.toNat, eacc := 0 } := by
  rw [Sm2.verifyRule, hq]

/-- VERIFY completes on a unit with a key, with its verdict in VALID. -/
theorem finish_verifyRule_of_verdict {c : Curve} {u : Sm2} {q : Pt} (hq : u.q = some q) {b : Bool}
    (hb : verifySignature c q u.eacc u.op0.toNat u.op1.toNat = b) :
    u.finish (u.verifyRule c) = { u with valid := b, eacc := 0, err := .ok, busy := false } := by
  rw [verifyRule_of_key hq, hb]
  rfl

/-- The range test fails before any operation of the capability is used (R189). -/
theorem verifySignature_of_out_of_range {c : Curve} {r s : Nat} (h : r < 1 ∨ s < 1 ∨ c.N < r ∨ c.N < s) (q : Pt)
    (e : Nat) : verifySignature c q e r s = false := if_pos h

/-- The verdict over a lawful capability (R188). -/
theorem verifySignature_iff {c : Curve} (hl : c.Lawful) {q : Pt} (hq : c.IsPoint q) (e r s : Nat) :
    verifySignature c q e r s = true ↔ (1 ≤ r ∧ 1 ≤ s ∧ r ≤ c.N ∧ s ≤ c.N) ∧
      shamir c s c.G ((r + s) % c.N) q ≠ c.inf ∧ (e + c.ecX (shamir c s c.G ((r + s) % c.N) q)) % c.N = r := by
  have hinf := hl.eq_iff _ _ (shamir_point hl s ((r + s) % c.N) hl.base_point hq) hl.inf_point
  by_cases hrange : r < 1 ∨ s < 1 ∨ c.N < r ∨ c.N < s
  · rw [verifySignature_of_out_of_range hrange]
    simp only [Bool.false_eq_true, false_iff]
    omega
  · have hin : 1 ≤ r ∧ 1 ≤ s ∧ r ≤ c.N ∧ s ≤ c.N := by omega
    simp only [verifySignature, if_neg hrange, and_iff_right hin, ne_eq, ← hinf]
    split <;> simp [*]

/-- The point at infinity verifies nothing (R191). -/
theorem verifySignature_of_inf {c : Curve} (hl : c.Lawful) {q : Pt} {r s : Nat}
    (hinf : shamir c s c.G ((r + s) % c.N) q = c.inf) (e : Nat) : verifySignature c q e r s = false := by
  have hself : c.ecEq c.inf c.inf = true := (hl.eq_iff _ _ hl.inf_point hl.inf_point).2 rfl
  unfold verifySignature
  split
  · rfl
  · simp only [hinf, hself, if_true]

/-- Settles O41: the range test fails, over every capability. -/
theorem verifyRangeRejection : Obligations.VerifyRangeRejection := fun _ u q hq hrange =>
  finish_verifyRule_of_verdict hq (verifySignature_of_out_of_range hrange q u.eacc)

/-- Settles O43: the verdict is negative, by the range test or by the test for `INF`. -/
theorem verifyRejectsInfinity : Obligations.VerifyRejectsInfinity := fun _ hl u _ hq hinf =>
  finish_verifyRule_of_verdict hq (verifySignature_of_inf hl hinf u.eacc)

/-- `s = N` adds nothing to the point: it is `t·Q` (R190). -/
theorem shamir_order {c : Curve} (hl : c.Lawful) (hg : c.IsGroup) {q : Pt} (hq : c.IsPoint q) (r : Nat) :
    shamir c c.N c.G ((r + c.N) % c.N) q = c.ecMul (r % c.N) q := by
  rw [shamir_eq_sumOfMultiples hg hl hl.base_point hq, Nat.add_mod_right, Curve.sumOfMultiples, hl.base_order,
    hl.inf_add _ (hl.mul_point _ _ hq)]

/-- Settles O42: `R` is a residue, so it is never `N`; and the verdict at `s = N` is that of the point `t·Q`. -/
theorem verifyAtTheOrder : Obligations.VerifyAtTheOrder := by
  intro c hl hg q e hq
  refine ⟨fun s => Bool.eq_false_iff.2 fun hvalid => ?_, fun r hr1 hr => ?_⟩
  · obtain ⟨-, -, hR⟩ := (verifySignature_iff hl hq e c.N s).1 hvalid
    exact (Nat.mod_lt _ hl.order_prime.pos).ne hR
  · rw [verifySignature_iff hl hq, shamir_order hl hg hq]
    exact and_iff_right ⟨hr1, hl.order_prime.one_le, hr, le_rfl⟩

/-! ## The round trip (R193) -/

/-- With the signing equation, VERIFY's point is the nonce's point `k·G`. -/
theorem shamir_of_sign_equation {c : Curve} (hl : c.Lawful) (hg : c.IsGroup) {d k r t : Nat}
    (h : (t * (d + 1) + r * d) % c.N = k % c.N) :
    shamir c t c.G ((r + t) % c.N) (c.ecMul d c.G) = c.ecMul k c.G := by
  have hscalar : t + (r + t) % c.N * d ≡ k [MOD c.N] :=
    calc t + (r + t) % c.N * d
        ≡ t + (r + t) * d [MOD c.N] := ((Nat.mod_modEq _ _).mul_right d).add_left t
      _ = t * (d + 1) + r * d := by ring
      _ ≡ k [MOD c.N] := h
  rw [shamir_eq_sumOfMultiples hg hl hl.base_point (hl.mul_point d _ hl.base_point), Curve.sumOfMultiples,
    ← hg.ecMul_mul hl hl.base_point, ← hg.ecMul_add hl hl.base_point]
  exact hg.ecMul_base_congr hl hscalar

/-- What a pass of the loop gives verifies with the key that signed. -/
theorem verifySignature_of_signPass {c : Curve} (hl : c.Lawful) (hg : c.IsGroup) {d e k r t : Nat}
    (hinv : (d + 1) % c.N ≠ 0) (hpass : signPass c d e k = some (r, t)) :
    verifySignature c (c.ecMul d c.G) e r t = true := by
  obtain ⟨hk0, hk, -⟩ := signPass_some hpass
  obtain ⟨⟨hr, -, hequation⟩, hr1, hrN, ht1, htN⟩ := signPass_signature hl.order_prime hinv hpass
  rw [verifySignature_iff hl (hl.mul_point _ _ hl.base_point), shamir_of_sign_equation hl hg hequation]
  exact ⟨⟨hr1, ht1, hrN.le, htN.le⟩, hl.base_mul_ne k (Nat.pos_of_ne_zero hk0) hk, hr.symm⟩

/-- Settles O44: the loop accepted an answer, its signature stands in the result windows, and it verifies. -/
theorem signedMessageVerifies : Obligations.SignedMessageVerifies := by
  intro c hl hg s d hkey _ _ hbusy hidle hok
  have hd : s.sm2.d = d := by rw [Sm2.d, hkey]; rfl
  have hq : s.sm2.q = some (c.ecMul d c.G) := by rw [Sm2.q, hkey]; rfl
  obtain ⟨hinv, k, r, t, rest, hpass, hsigned⟩ := signOf_completed hbusy hidle hok
  obtain ⟨-, -, hr, -, ht⟩ := signPass_signature hl.order_prime hinv hpass
  obtain ⟨hrs0, hrs1⟩ := signed_toNat hl s hr ht rest
  rw [hd] at hinv hpass
  refine ⟨_, verifyRule_of_key (q := c.ecMul d c.G) ?_, ?_⟩
  · rw [hsigned]
    exact hq
  · rw [hsigned]
    show verifySignature c (c.ecMul d c.G) s.sm2.eacc _ _ = true
    rw [hrs0, hrs1]
    exact verifySignature_of_signPass hl hg hinv hpass

end Sys2Proof.Machine

/-! MULADD's point (43_ec_muladd.md): the simultaneous routine computes the sum of the two multiples. -/

namespace Sys2Proof.Machine

/-- Settles O45: the loop invariant over the scalars' bits, read at bit 0, is the sum that R211 names. -/
theorem shamirComputesSum : Obligations.ShamirComputesSum := fun _ hl hg k l _ _ hP hQ =>
  shamir_eq_sumOfMultiples hg hl hP hQ k l

end Sys2Proof.Machine

/-! Bus errors, writes dropped by a busy unit, and the error codes a command ends with (60_exceptions.md). -/

namespace Sys2Proof.Machine

/-! ## Which accesses are bus errors (R239) -/

/-- An access reaches a register exactly if it is a 32-bit access at that register's offset. -/
theorem accessReg_eq_ok_iff {width : Nat} {a : BitVec 12} {r : Reg} :
    accessReg width a = .ok r ↔ width = 32 ∧ r.offset = a.toNat := by
  constructor
  · intro h
    obtain ⟨hwidth, halign, hr⟩ := accessReg_ok h
    exact ⟨hwidth, Reg.at?_some hr halign⟩
  · rintro ⟨rfl, hoff⟩
    have ha : BitVec.ofNat 12 r.offset = a := by rw [hoff, BitVec.ofNat_toNat, BitVec.setWidth_eq]
    rw [← ha]
    exact accessReg_offset r

/-- An access reaches no register exactly if its width, its alignment or its offset is wrong. -/
theorem accessReg_error_iff {width : Nat} {a : BitVec 12} :
    (∃ f, accessReg width a = .error f) ↔ width ≠ 32 ∨ a.toNat % 4 ≠ 0 ∨ ∀ r : Reg, r.offset ≠ a.toNat := by
  cases hacc : accessReg width a with
  | ok r =>
    obtain ⟨rfl, hoff⟩ := accessReg_eq_ok_iff.1 hacc
    have halign := hoff ▸ r.offset_mod_four
    simp only [reduceCtorEq, exists_false, ne_eq, not_true_eq_false, halign, false_or, false_iff]
    exact fun hfree => hfree r hoff
  | error f =>
    have hnone (r : Reg) : ¬ (width = 32 ∧ r.offset = a.toNat) := by
      simp [← accessReg_eq_ok_iff, hacc]
    simp only [Except.error.injEq, exists_eq', true_iff]
    by_cases hwidth : width = 32
    · exact .inr (.inr fun r hoff => hnone r ⟨hwidth, hoff⟩)
    · exact .inl hwidth

/-- A read is a bus error exactly if it reaches no register. -/
theorem busRead_fault_iff {width : Nat} {a : BitVec 12} {s : State} :
    (∃ f, busRead width a s = .fault f) ↔ ∃ f, accessReg width a = .error f := by
  cases hacc : accessReg width a <;> simp [busRead, hacc]

/-- Every command has a next state: no command faults. -/
theorem exists_exec_eq_next (i : Instr) (s : State) : ∃ t, exec i s = .next t := by
  cases hu : i.unit with
  | sm3 =>
    obtain ⟨u, n, h⟩ := exec_sm3_shape hu s
    exact ⟨_, h⟩
  | sm2 =>
    obtain ⟨u, a, h⟩ := exec_sm2_shape hu s
    exact ⟨_, h⟩

/-- A write to a CMD register never faults, whatever the word. -/
theorem exists_cmdWrite_eq_next (u : UnitId) (v : Word) (s : State) : ∃ t, cmdWrite u v s = .next t := by
  unfold cmdWrite
  split
  · exact exists_exec_eq_next _ s
  · split
    · exact ⟨_, rfl⟩
    · exact ⟨_, rfl⟩

/-- A write that reaches a register faults exactly if the register is read-only. -/
theorem writeReg_fault_iff {s : State} {r : Reg} {v : Word} :
    (∃ f, s.writeReg r v = .fault f) ↔ r.access = .ro := by
  unfold State.writeReg
  cases r.access with
  | ro => simp
  | wo =>
    obtain ⟨t, ht⟩ := exists_cmdWrite_eq_next r.unit v s
    simp [ht]
  | rw => cases s.busy r.unit <;> simp

/-- A write is a bus error exactly if it reaches no register or a read-only one. -/
theorem busWrite_fault_iff {width : Nat} {a : BitVec 12} {v : Word} {s : State} :
    (∃ f, busWrite width a v s = .fault f) ↔
      (∃ f, accessReg width a = .error f) ∨ ∃ r, accessReg width a = .ok r ∧ r.access = .ro := by
  cases hacc : accessReg width a with
  | error f => simp [busWrite, hacc]
  | ok r => simp [busWrite, hacc, writeReg_fault_iff]

/-- Settles O6: a read faults where no register is reached, a write also where the one reached is read-only. -/
theorem busErrorsAreExactlyThese : Obligations.BusErrorsAreExactlyThese := by
  refine fun width a v s => ⟨busRead_fault_iff.trans accessReg_error_iff, ?_⟩
  rw [busWrite_fault_iff, accessReg_error_iff, or_assoc, or_assoc]
  refine or_congr_right' fun hwidth => ?_
  simp only [accessReg_eq_ok_iff, not_not.1 hwidth, true_and]

/-! ## Writes to a busy unit (R240) -/

/-- A 32-bit write at a register's own offset is a write to that register. -/
theorem busWrite_offset (r : Reg) (v : Word) (s : State) :
    busWrite 32 (BitVec.ofNat 12 r.offset) v s = s.writeReg r v := by
  rw [busWrite, accessReg_offset]

/-- A busy unit drops a write to its RW registers, and a word other than RESET to its CMD register. -/
theorem writeReg_of_busy {s : State} {r : Reg} {v : Word} (hbusy : s.busy r.unit = true)
    (h : r.access = .rw ∨ (r.access = .wo ∧ v ≠ resetWord)) : s.writeReg r v = .next (s.dropWrite r.unit) := by
  rcases h with hrw | ⟨hwo, hv⟩
  · simp only [State.writeReg, hrw, hbusy, if_true]
  · simp only [State.writeReg, hwo, cmdWrite, if_neg hv, hbusy, if_true]

/-- Settles O12: the write is dropped, and a dropped write sets the unit's OVR. -/
theorem busyUnitDropsWrites : Obligations.BusyUnitDropsWrites := by
  intro s r v hbusy h
  rw [busWrite_offset, writeReg_of_busy hbusy h]
  cases r.unit <;> rfl

/-! ## When a rule of the SM2 unit raises an error (R233 to R237) -/

/-- LOAD_PRIV with a key loaded (R233). -/
theorem loadPrivRule_of_key (c : Curve) {u : Sm2} (h : u.mode ≠ .none) : u.loadPrivRule c = .error .sequence := if_pos h

/-- LOAD_PRIV of a scalar outside `(0, N)` (R235). -/
theorem loadPrivRule_of_out_of_range {c : Curve} {u : Sm2} (hmode : u.mode = .none)
    (h : u.op0.toNat = 0 ∨ c.N ≤ u.op0.toNat) : u.loadPrivRule c = .error .keyRange := by
  have hrange : ¬ (0 < u.op0.toNat ∧ u.op0.toNat < c.N) := by omega
  simp [Sm2.loadPrivRule, hmode, hrange]

/-- LOAD_PUB with a key loaded (R233). -/
theorem loadPubRule_of_key (c : Curve) {u : Sm2} (h : u.mode ≠ .none) : u.loadPubRule c = .error .sequence := if_pos h

/-- LOAD_PUB of a window that encodes no point (R237). -/
theorem loadPubRule_of_no_point {c : Curve} {u : Sm2} (hmode : u.mode = .none) (h : c.ptDec u.pt0 = none) :
    u.loadPubRule c = .error .badPoint := by
  simp [Sm2.loadPubRule, hmode, h]

/-- VERIFY without a key (R234). -/
theorem verifyRule_of_no_key (c : Curve) {u : Sm2} (h : u.mode = .none) : u.verifyRule c = .error .modeErr := by
  have hq : u.q = none := (Key.q_eq_none _).2 ((Key.mode_eq_none _).1 h)
  rw [Sm2.verifyRule, hq]

/-- MULADD with a window that encodes no point (R237). -/
theorem muladdRule_of_no_point {c : Curve} {u : Sm2} (h : c.ptDec u.pt0 = none ∨ c.ptDec u.pt1 = none) :
    u.muladdRule c = .error .badPoint := by
  rcases h with h0 | h1
  · simp [Sm2.muladdRule, h0]
  · simp [Sm2.muladdRule, h1]

/-- A command of the SM2 unit whose rule raises an error raises it on the unit (30_encoding.md R98). -/
theorem next_withSm2_finish_of_error {s : State} {rule : Except ErrCode Sm2} {e : ErrCode} (h : rule = .error e) :
    (.next (s.withSm2 (s.sm2.finish rule)) : Host.Outcome State Fault Refusal) = .next (s.raise .sm2 e) := by
  rw [h]
  rfl

/-- SIGN without a private key (R234). -/
theorem signOf_of_mode_ne_sign (c : Curve) {s : State} (h : s.sm2.mode ≠ .sign) : s.signOf c = s.raise .sm2 .modeErr := by
  rw [signOf_eq, if_pos h]

/-- SIGN with a private key whose `D + 1` has no inverse: raised before any draw (R236). -/
theorem signOf_of_no_inverse {c : Curve} {s : State} (hmode : s.sm2.mode = .sign) (h : (s.sm2.d + 1) % c.N = 0) :
    s.signOf c = s.raise .sm2 .noInverse := by
  rw [signOf_eq, if_neg (not_not.2 hmode), if_pos h]

/-- Settles O47: each command's rule raises its code, and a raised code changes ERR and BUSY only. -/
theorem errorCodesAreRaised : Obligations.ErrorCodesAreRaised := by
  refine ⟨fun s nb hnb hfinal => ?_, fun s hkey => ⟨?_, ?_⟩, fun s hmode => ?_, fun s hmode => ?_,
    fun s hmode hrange => ?_, fun s hmode hinv => ?_⟩
  · exact ⟨exec_sm3Absorb_of_final hnb hfinal, exec_sm3Finalize_of_final hfinal⟩
  · exact next_withSm2_finish_of_error (loadPrivRule_of_key Config.curve hkey)
  · exact next_withSm2_finish_of_error (loadPubRule_of_key Config.curve hkey)
  · exact congrArg Host.Outcome.next (signOf_of_mode_ne_sign Config.curve hmode)
  · exact next_withSm2_finish_of_error (verifyRule_of_no_key Config.curve hmode)
  · exact next_withSm2_finish_of_error (loadPrivRule_of_out_of_range hmode hrange)
  · exact congrArg Host.Outcome.next (signOf_of_no_inverse hmode hinv)

/-- Settles O48: the two rules raise over every capability, and the commands run them over the configured one. -/
theorem badPointIsRaised : Obligations.BadPointIsRaised :=
  ⟨fun _ u hmode h => congrArg u.finish (loadPubRule_of_no_point hmode h),
    fun _ u h => congrArg u.finish (muladdRule_of_no_point h),
    fun _ => ⟨rfl, rfl⟩⟩

end Sys2Proof.Machine

/-! The resets: of one unit by its RESET command, at any time, and of both by the reset input (70_reset_and_hazards.md). -/

namespace Sys2Proof.Machine

/-! ## What a reset cancels (R261, R262) -/

/-- A turn of a unit with no command in flight (30_encoding.md R98). -/
theorem completeUnit_of_idle {u : UnitId} {s : State} (hidle : s.busy u = false) : completeUnit u s = .next s := by
  simp [completeUnit, hidle]

/-- The reset input clears BUSY of either unit. -/
theorem hardReset_busy (s : State) (u : UnitId) : s.hardReset.busy u = false := by
  cases u <;> rfl

/-- Settles O17: both resets leave the unit idle, and an idle unit's turn completes nothing. -/
theorem sm3UnitReset : Obligations.Sm3UnitReset :=
  ⟨fun s => ⟨_, s.withSm3 s.sm3.unitReset, rfl, rfl, completeUnit_of_idle s.sm3.unitReset_busy⟩,
    fun s => ⟨_, s.hardReset, rfl, rfl, completeUnit_of_idle (hardReset_busy s .sm3)⟩⟩

/-- Settles O18: both resets leave the unit idle, and an idle unit's turn completes nothing. -/
theorem sm2UnitReset : Obligations.Sm2UnitReset :=
  ⟨fun s => ⟨_, s.withSm2 s.sm2.unitReset, rfl, rfl, completeUnit_of_idle s.sm2.unitReset_busy⟩,
    fun s => ⟨_, s.hardReset, rfl, rfl, completeUnit_of_idle (hardReset_busy s .sm2)⟩⟩

/-! ## The RESET word (R270) -/

/-- A write of the RESET word does not ask whether the unit is busy (30_encoding.md R98). -/
theorem cmdWrite_resetWord (u : UnitId) (s : State) : cmdWrite u resetWord s = exec (resetCommand u) s := if_pos rfl

/-- The RESET word on the bus: at the offset of a unit's CMD register it runs that unit's RESET command. -/
theorem busWrite_resetWord (u : UnitId) (s : State) :
    busWrite 32 (cmdOffset u) resetWord s = exec (resetCommand u) s := by
  cases u with
  | sm3 => exact (busWrite_offset .sm3Cmd resetWord s).trans (cmdWrite_resetWord .sm3 s)
  | sm2 => exact (busWrite_offset .sm2Cmd resetWord s).trans (cmdWrite_resetWord .sm2 s)

/-- Settles O20: the word runs the RESET command at once, which leaves the unit idle. -/
theorem resetWordAborts : Obligations.ResetWordAborts :=
  ⟨fun s => ⟨s.withSm3 s.sm3.unitReset, busWrite_resetWord .sm3 s, rfl, s.sm3.unitReset_busy,
      completeUnit_of_idle s.sm3.unitReset_busy⟩,
    fun s => ⟨s.withSm2 s.sm2.unitReset, busWrite_resetWord .sm2 s, rfl, s.sm2.unitReset_busy,
      completeUnit_of_idle s.sm2.unitReset_busy⟩⟩

/-! ## Registers after the hardware reset (R260) -/

/-- Every word of a wide window that holds 0. -/
theorem wideWord_zero {w : Nat} (n k : Nat) : wideWord n (0 : BitVec w) k = 0 := by
  rw [wideWord_eq_extractLsb']
  exact BitVec.extractLsb'_zero

/-- A number that fits its field at bit 0 is the value of the whole register. -/
theorem fieldAt_zero_ofNat {w n : Nat} (hw : w ≤ 32) (hn : n < 2 ^ w) :
    fieldAt 0 (BitVec.ofNat w n) = BitVec.ofNat 32 n := by
  rw [fieldAt, BitVec.shiftLeft_zero, BitVec.setWidth_ofNat_of_le_of_lt hw hn]

/-- SM2_NBITS shows the bit length of `N` uncut: a lawful `N` has at most 511 bits, and the field has 10 (10_state.md R49). -/
theorem regValue_sm2Nbits (s : State) : s.regValue .sm2Nbits = BitVec.ofNat 32 (bitlen Config.curve.N) :=
  fieldAt_zero_ofNat (by decide) (Config.curve_lawful.nbits_le.trans_lt (by decide))

/-- A register is read from its unit alone, and the hardware reset leaves both units as in `State.reset`. -/
theorem regValue_hardReset (s : State) (r : Reg) : s.hardReset.regValue r = State.reset.regValue r := by
  cases hu : r.unit with
  | sm3 => exact regValue_agrees_sm3 hu (State.hardReset_sm3 s)
  | sm2 => exact regValue_agrees_sm2 hu (State.hardReset_sm2 s)

/-- Settles O19: the registers after it are those of `State.reset`, where each one's value is found by its kind. -/
theorem registersAfterHardwareReset : Obligations.RegistersAfterHardwareReset := by
  refine ⟨fun s => ⟨_, _, rfl⟩, fun r => ⟨fun s => ⟨s.hardReset, rfl, regValue_hardReset s r⟩, ?_⟩⟩
  cases r with
  | sm3V i => rfl
  | sm2Nbits => exact regValue_sm2Nbits State.reset
  | sm3Cmd | sm3Status | sm3Fill | sm3CntLo | sm3CntHi | sm2Cmd | sm2Status => rfl
  | sm3Din i | sm2Msg i => exact Vector.getElem_replicate i.isLt
  | sm2Op0 k | sm2Op1 k | sm2Rs0 k | sm2Rs1 k => exact wideWord_zero 16 k.val
  | sm2Pt0 k | sm2Pt1 k | sm2Rpt k | sm2Q k => exact wideWord_zero 32 k.val

end Sys2Proof.Machine

/-! Command words and commands: each decodes to the other (30_encoding.md R90, R93, R94). -/

namespace Sys2Proof

/-- A word with the fields of a well-formed command decodes, on the command's unit, to it. -/
theorem decode_of_fields {v : Word} {i : Instr} (hwf : i.wf = true) (hrsv : fieldRsv v = 0)
    (hop : fieldOp v = i.opcode) (hnb : fieldNb v = i.count) : decode i.unit v = .ok i := by
  unfold decode
  rw [if_neg (not_not.2 hrsv), hop, hnb]
  cases i with
  | sm3Absorb nb | sm2MsgAbsorb nb => exact if_pos (of_decide_eq_true hwf)
  | _ => rfl

/-- Settles O3: the encoded word has the command's fields, and these decide what the decoder answers. -/
theorem decodeOfEncodeIsSame : Obligations.DecodeOfEncodeIsSame := by
  intro i hwf
  obtain ⟨hrsv, hop, hnb⟩ := Laws.EncodeFields.of_count i Instr.count_lt_of_wf hwf
  exact decode_of_fields hwf hrsv hop hnb

/-- A word that decodes is put together from its command's opcode and count. -/
theorem encode_of_decode {u : UnitId} {v : Word} {i : Instr} (h : decode u v = .ok i) : encode i = v := by
  obtain ⟨-, -, hrsv, hop, hnb⟩ := decode_ok h
  rw [word_of_fields v, hrsv, hop, hnb]
  rfl

/-- Settles O4: the decoder answers on a word's fields, and the fields are the word. -/
theorem encodeOfDecodeIsSame : Obligations.EncodeOfDecodeIsSame := by
  intro u v i h
  obtain ⟨hunit, hwf, -⟩ := decode_ok h
  exact ⟨hunit, hwf, encode_of_decode h⟩

/-- Settles O1: word by word. -/
theorem decodedCommandWords : Obligations.DecodedCommandWords := by
  unfold Obligations.DecodedCommandWords
  decide

/-- The RESET word is the word of the two RESET commands and of no other (30_encoding.md R98). -/
theorem encode_eq_resetWord_iff {i : Instr} (hwf : i.wf = true) :
    encode i = resetWord ↔ i = .sm3Reset ∨ i = .sm2Reset := by
  constructor
  · intro h
    have hi := decodeOfEncodeIsSame i hwf
    rw [h] at hi
    cases hu : i.unit with
    | sm3 =>
      rw [hu] at hi
      exact .inl (Except.ok.inj hi).symm
    | sm2 =>
      rw [hu] at hi
      exact .inr (Except.ok.inj hi).symm
  · rintro (rfl | rfl) <;> rfl

end Sys2Proof

/-! A command on its way through the machine: issued by a write, run by a turn (30_encoding.md R98), polled for by the host
(R100). -/

namespace Sys2Proof.Machine

/-! ## Issue (R98) -/

/-- A 32-bit write at a unit's CMD offset is a write to its CMD register. -/
theorem busWrite_cmdOffset (u : UnitId) (v : Word) (s : State) : busWrite 32 (cmdOffset u) v s = cmdWrite u v s := by
  cases u with
  | sm3 => exact busWrite_offset .sm3Cmd v s
  | sm2 => exact busWrite_offset .sm2Cmd v s

/-- An idle unit takes any word but RESET. -/
theorem cmdWrite_of_idle {u : UnitId} {v : Word} {s : State} (hv : v ≠ resetWord) (hidle : s.busy u = false) :
    cmdWrite u v s = .next (s.issue u v) := by
  simp [cmdWrite, hv, hidle]

/-- Settles O14: the write reaches the CMD register, and the idle unit takes the word. -/
theorem commandIsIssued : Obligations.CommandIsIssued :=
  ⟨fun s v hv hidle => (busWrite_cmdOffset .sm3 v s).trans (cmdWrite_of_idle hv hidle),
    fun s v hv hidle => (busWrite_cmdOffset .sm2 v s).trans (cmdWrite_of_idle hv hidle)⟩

/-! ## Completion (R98) -/

/-- A step with a turn laid down is that agent's. -/
theorem step_of_turns {s : State} {a : Agent} {rest : List Agent} (h : s.turns = a :: rest) :
    step s = takeTurn a (s.withTurns rest) := by
  rw [step, h]

/-- A unit's agent completes its command. -/
theorem takeTurn_unitAgent (u : UnitId) (s : State) : takeTurn (unitAgent u) s = completeUnit u s := by
  cases u <;> rfl

/-- A completion runs the command that the word in flight decodes to. -/
theorem completeUnit_of_decode {u : UnitId} {s : State} {i : Instr} (hbusy : s.busy u = true)
    (hd : decode u (s.pend u) = .ok i) : completeUnit u s = exec i s := by
  rw [completeUnit, if_pos hbusy, hd]

/-- The host's turn at a write. -/
theorem hostTurn_write {s : State} {width : Nat} {offset : BitVec 12} {v : Word} {rest : List Stmt}
    (h : s.program = .write width offset v :: rest) : hostTurn s = busWrite width offset v (s.withProgram rest) := by
  rw [hostTurn, h]

/-- Settles O15: the unit's turn completes the word in flight, and the host's turn writes the RESET word, which acts at once. -/
theorem stepRunsDecodedCommand : Obligations.StepRunsDecodedCommand := by
  refine ⟨fun s u i rest hturns hbusy hd => ?_, fun s u rest p hturns hprogram => ?_⟩
  · rw [step_of_turns hturns, takeTurn_unitAgent]
    cases u <;> exact completeUnit_of_decode hbusy hd
  · rw [step_of_turns hturns]
    exact (hostTurn_write (s := s.withTurns rest) hprogram).trans (busWrite_resetWord u _)

theorem State.issue_busy (s : State) (u : UnitId) (v : Word) : (s.issue u v).busy u = true := by cases u <;> rfl
theorem State.issue_pend (s : State) (u : UnitId) (v : Word) : (s.issue u v).pend u = v := by cases u <;> rfl

/-- An issue leaves the turns to come. -/
theorem State.issue_withTurns (s : State) (u : UnitId) (v : Word) (l : List Agent) :
    ((s.issue u v).withTurns l).withTurns s.turns = s.issue u v := by cases u <;> rfl

/-- Settles O16: a RESET is placed as the host's next write, any other command as the word in flight of its unit, and the step
runs either. -/
theorem placedCommandRuns : Obligations.PlacedCommandRuns := by
  intro s i hwf
  obtain ⟨hcomplete, hwrite⟩ := stepRunsDecodedCommand
  unfold State.placeWord
  by_cases hi : i = .sm3Reset ∨ i = .sm2Reset
  · have hcommand : resetCommand i.unit = i := by rcases hi with rfl | rfl <;> rfl
    have hword : encode i = resetWord := (encode_eq_resetWord_iff hwf).2 hi
    rw [if_pos hi, if_pos hword, hword]
    exact (hwrite _ i.unit s.turns s.program rfl rfl).trans (by rw [hcommand]; rfl)
  · rw [if_neg hi, if_neg (mt (encode_eq_resetWord_iff hwf).1 hi)]
    have hd : decode i.unit ((s.issue i.unit (encode i)).pend i.unit) = .ok i := by
      rw [State.issue_pend, decodeOfEncodeIsSame i hwf]
    rw [step_of_turns rfl, takeTurn_unitAgent, State.issue_withTurns, completeUnit_of_decode (s.issue_busy _ _) hd]

/-! ## POLL (R100) -/

/-- Bit 0 of a unit's STATUS is its BUSY. -/
theorem regValue_statusReg_bit0 (s : State) (u : UnitId) : (s.regValue (statusReg u)).getLsbD 0 = s.busy u := by
  cases u with
  | sm3 => exact s.sm3.status_flags.1
  | sm2 => exact s.sm2.status_flags.1

/-- STATUS is read as it stands, busy unit or not (70_reset_and_hazards.md R265). -/
theorem readReg_statusReg (s : State) (u : UnitId) : s.readReg (statusReg u) = s.see (s.regValue (statusReg u)) := by
  cases u <;> rfl

/-- Settles O60: the POLL looks at bit 0 of the STATUS it reads, which is BUSY. -/
theorem pollWaitsForCompletion : Obligations.PollWaitsForCompletion := by
  intro s u rest h
  have hturn : takeTurn .host s = if s.busy u = true then .next (s.readReg (statusReg u))
      else .next ((s.withProgram rest).readReg (statusReg u)) := by
    show hostTurn s = _
    rw [hostTurn, h, ← regValue_statusReg_bit0]
  rw [hturn]
  by_cases hbusy : s.busy u = true
  · rw [if_pos hbusy, if_pos hbusy, readReg_statusReg]
    cases u <;> rfl
  · rw [if_neg hbusy, if_neg hbusy, readReg_statusReg]
    cases u <;> rfl

end Sys2Proof.Machine

/-! Reads and writes of registers (20_memory.md R65, R66), and what the registers of 10_state.md section 4 show. -/

namespace Sys2Proof.Machine

/-! ## Reads (R65) -/

/-- A 32-bit read at a register's own offset is a read of that register. -/
theorem busRead_offset (r : Reg) (s : State) : busRead 32 (BitVec.ofNat 12 r.offset) s = .next (s.readReg r) := by
  rw [busRead, accessReg_offset]

/-- The word a read is answered with: free for a result register of a busy unit (70_reset_and_hazards.md R265). -/
theorem readReg_seen (s : State) (r : Reg) : (s.readReg r).seen =
    (if r.isResult && s.busy r.unit then Config.busyRead s.free else s.regValue r) :: s.seen := by
  unfold State.readReg
  split <;> rfl

/-- Reads of one register are answered alike where the value, BUSY and the next free value are the same. -/
theorem readReg_seen_agrees {s s' : State} {r : Reg} (hseen : s.seen = s'.seen) (hfree : s.free = s'.free)
    (hbusy : s.busy r.unit = s'.busy r.unit) (hvalue : s.regValue r = s'.regValue r) :
    (s.readReg r).seen = (s'.readReg r).seen := by
  rw [readReg_seen, readReg_seen, hseen, hfree, hbusy, hvalue]

/-- The read of any other register, or of an idle unit, is answered with the register's value. -/
theorem readReg_of_shown {s : State} {r : Reg} (h : r.isResult = false ∨ s.busy r.unit = false) :
    s.readReg r = s.see (s.regValue r) := by
  have hshown : (r.isResult && s.busy r.unit) = false := Bool.and_eq_false_iff.2 h
  rw [State.readReg, hshown, if_neg Bool.false_ne_true]

/-- Settles O7: a read changes the words answered, and the count of free values at most. -/
theorem readsLeaveTheEngine : Obligations.ReadsLeaveTheEngine := fun r s =>
  ⟨_, busRead_offset r s, s.readReg_sm3 r, s.readReg_sm2 r, s.readReg_program r, s.readReg_answers r, s.readReg_turns r,
    ⟨_, readReg_seen s r⟩, readReg_of_shown⟩

/-- No register's value depends on `D`, with the same `Q` (10_state.md R29): STATUS shows MODE, and `SM2_Q` shows `Q`. -/
theorem regValue_signing (s : State) (d d' : Nat) (q : Pt) (r : Reg) :
    (s.withSm2 { s.sm2 with key := .signing d q }).regValue r =
      (s.withSm2 { s.sm2 with key := .signing d' q }).regValue r := by
  cases r <;> rfl

/-- Settles O53: the two reads reach the same register, and its value is the same. -/
theorem privateKeyIsUnreadable : Obligations.PrivateKeyIsUnreadable := by
  intro s d d' q width a t h
  unfold busRead at h ⊢
  cases hacc : accessReg width a with
  | error f =>
    rw [hacc] at h
    cases h
  | ok r =>
    rw [hacc] at h
    cases h
    refine ⟨_, rfl, readReg_seen_agrees rfl rfl ?_ (regValue_signing s d' d q r)⟩
    cases r.unit <;> rfl

/-! ## What the registers show (10_state.md R42 to R58) -/

/-- FILL stands alone in its register (10_state.md R42). -/
theorem regValue_sm3Fill_toNat {s : State} (h : s.sm3.fill ≤ 63) : (s.regValue .sm3Fill).toNat = s.sm3.fill := by
  have hvalue : s.regValue .sm3Fill = BitVec.ofNat 32 s.sm3.fill := fieldAt_zero_ofNat (by decide) (by omega)
  rw [hvalue, BitVec.toNat_ofNat]
  omega

/-- The two halves of the counter. -/
theorem Sm3.cnt_halves (u : Sm3) : u.cntLo = u.cnt.extractLsb' 0 32 ∧ u.cntHi = u.cnt.extractLsb' 32 32 :=
  ⟨BitVec.extractLsb'_append_eq_right.symm, BitVec.extractLsb'_append_eq_left.symm⟩

theorem regValue_sm2Nbits_toNat (s : State) : (s.regValue .sm2Nbits).toNat = bitlen Config.curve.N := by
  have hle : bitlen Config.curve.N ≤ 511 := Config.curve_lawful.nbits_le
  rw [regValue_sm2Nbits, BitVec.toNat_ofNat]
  omega

/-- `SM2_Q` with a key loaded (R58). -/
theorem regValue_sm2Q_of_point {s : State} {q : Pt} (h : s.sm2.q = some q) (k : Fin 32) :
    s.regValue (.sm2Q k) = (Config.curve.ptEnc q).extractLsb' (992 - 32 * k.val) 32 := by
  show wideWord 32 (s.sm2.qWindow Config.curve) k.val = _
  rw [Sm2.qWindow, h]
  exact wideWord_eq_extractLsb' 32 _ k.val

/-- `SM2_Q` without one (R58). -/
theorem regValue_sm2Q_of_none {s : State} (h : s.sm2.mode = .none) (k : Fin 32) : s.regValue (.sm2Q k) = 0 := by
  have hq : s.sm2.q = none := (Key.q_eq_none _).2 ((Key.mode_eq_none _).1 h)
  show wideWord 32 (s.sm2.qWindow Config.curve) k.val = 0
  rw [Sm2.qWindow, hq]
  exact wideWord_zero 32 k.val

/-- Settles O9: register by register. -/
theorem registersShowTheirState : Obligations.RegistersShowTheirState := by
  intro s
  obtain ⟨hlo, hhi⟩ := s.sm3.cnt_halves
  exact ⟨regValue_sm3Fill_toNat, extractLsb'_fieldAt_disjoint _ (.inl le_rfl), hlo, hhi, fun _ => rfl, fun _ => rfl,
    fun _ => rfl, regValue_sm2Nbits_toNat s, fun q k hq => regValue_sm2Q_of_point hq k,
    fun k hmode => regValue_sm2Q_of_none hmode k, rfl, rfl⟩

/-! ## Writes to an idle unit (R66) -/

/-- An idle unit takes a write to an RW register. -/
theorem writeReg_of_idle {s : State} {r : Reg} (hrw : r.access = .rw) (hidle : s.busy r.unit = false) (v : Word) :
    s.writeReg r v = .next (s.setReg r v) := by
  simp [State.writeReg, hrw, hidle]

/-- The word written reads back. -/
theorem regValue_setReg_same (s : State) {r : Reg} (hrw : r.access = .rw) (v : Word) : (s.setReg r v).regValue r = v := by
  cases r with
  | sm3Din i => exact Vector.getElem_set_self i.isLt
  | sm2Msg i => exact Vector.getElem_set_self i.isLt
  | sm2Op0 k => exact wideWord_wideSet_same 16 s.sm2.op0 k.val v k.isLt
  | sm2Op1 k => exact wideWord_wideSet_same 16 s.sm2.op1 k.val v k.isLt
  | sm2Pt0 k => exact wideWord_wideSet_same 32 s.sm2.pt0 k.val v k.isLt
  | sm2Pt1 k => exact wideWord_wideSet_same 32 s.sm2.pt1 k.val v k.isLt
  | _ => cases hrw

/-- Every other register keeps its value: one of another window is read from another field, one of the same window is another
word of it. -/
theorem regValue_setReg_ne (s : State) {r r' : Reg} (hne : r' ≠ r) (v : Word) :
    (s.setReg r v).regValue r' = s.regValue r' := by
  have word {n : Nat} (x : BitVec (32 * n)) {i j : Fin n} (hji : j ≠ i) :
      wideWord n (wideSet n x i.val v) j.val = wideWord n x j.val :=
    wideWord_wideSet_ne n x i.val j.val v i.isLt j.isLt (Fin.val_ne_of_ne hji)
  have entry (w : Vector Word 16) {i j : Fin 16} (hji : j ≠ i) : (w.set i.val v)[j.val] = w[j.val] :=
    Vector.getElem_set_ne i.isLt j.isLt (Fin.val_ne_of_ne hji.symm)
  cases r with
  | sm3Din i =>
    cases r' with
    | sm3Din j => exact entry s.sm3.din (ne_of_apply_ne Reg.sm3Din hne)
    | _ => rfl
  | sm2Msg i =>
    cases r' with
    | sm2Msg j => exact entry s.sm2.msg (ne_of_apply_ne Reg.sm2Msg hne)
    | _ => rfl
  | sm2Op0 i =>
    cases r' with
    | sm2Op0 j => exact word (n := 16) s.sm2.op0 (ne_of_apply_ne Reg.sm2Op0 hne)
    | _ => rfl
  | sm2Op1 i =>
    cases r' with
    | sm2Op1 j => exact word (n := 16) s.sm2.op1 (ne_of_apply_ne Reg.sm2Op1 hne)
    | _ => rfl
  | sm2Pt0 i =>
    cases r' with
    | sm2Pt0 j => exact word (n := 32) s.sm2.pt0 (ne_of_apply_ne Reg.sm2Pt0 hne)
    | _ => rfl
  | sm2Pt1 i =>
    cases r' with
    | sm2Pt1 j => exact word (n := 32) s.sm2.pt1 (ne_of_apply_ne Reg.sm2Pt1 hne)
    | _ => rfl
  | _ => rfl

/-- Setting a register changes the host windows only. -/
theorem setReg_frame (s : State) (r : Reg) (v : Word) : s.setReg r v = { s with
    sm3 := { s.sm3 with din := (s.setReg r v).sm3.din }
    sm2 := { s.sm2 with
      op0 := (s.setReg r v).sm2.op0, op1 := (s.setReg r v).sm2.op1, msg := (s.setReg r v).sm2.msg
      pt0 := (s.setReg r v).sm2.pt0, pt1 := (s.setReg r v).sm2.pt1 } } := by
  cases r <;> rfl

/-- Settles O11: the write reaches the register, which is then set. -/
theorem registerWriteReadsBack : Obligations.RegisterWriteReadsBack := fun s r v hrw hidle =>
  ⟨_, (busWrite_offset r v s).trans (writeReg_of_idle hrw hidle v), regValue_setReg_same s hrw v,
    fun _ hne => regValue_setReg_ne s hne v, setReg_frame s r v⟩

end Sys2Proof.Machine

/-! The commands of the SM3 unit without error (40_sm3_digest.md), the digest of a whole message (R110), and what a step changes
of the unit (10_state.md). -/

namespace Sys2Proof.Machine

/-! ## One block (41_sm3_compression.md R151) -/

/-- Settles O27: the kernel runs the 64 rounds. -/
theorem compressionOfAbcBlock : Obligations.CompressionOfAbcBlock := by
  unfold Obligations.CompressionOfAbcBlock
  decide +kernel

/-! ## ABSORB and FINALIZE without error (R112, R115) -/

/-- What `absorb(bytes)` can change of the unit. -/
theorem absorbBytes_eq (u : Sm3) (m : List Byte) : u.absorbBytes m = { u with
    v := (u.absorbBytes m).v, cntHi := (u.absorbBytes m).cntHi, cntLo := (u.absorbBytes m).cntLo
    buf := (u.absorbBytes m).buf, fill := (u.absorbBytes m).fill } := by
  obtain ⟨hfinal, hbusy, herr, hovr, hpend, hdin⟩ := absorbBytes_frame u m
  rw [← hfinal, ← hbusy, ← herr, ← hovr, ← hpend, ← hdin]

/-- Settles O22: the unit completes with its bytes absorbed. -/
theorem absorbBuffersOrCompresses : Obligations.AbsorbBuffersOrCompresses := by
  intro s nb hnb hfinal hfill
  have hlen := windowBytes_length s.sm3.din nb
  obtain ⟨hcnt, hshort, hlong⟩ := Sm3.absorbBytes_spec hfill (hlen.le.trans hnb)
  rw [hlen] at hcnt hshort hlong
  refine ⟨_, exec_sm3Absorb_of_not_final hnb hfinal, ?_, hcnt, hshort, hlong⟩
  rw [absorbBytes_eq]
  rfl

/-- Settles O24: the unit completes with the digest, which has one form with room for the length and one without. -/
theorem finalizePadsAndCloses : Obligations.FinalizePadsAndCloses := fun _ hfinal _ =>
  ⟨_, exec_sm3Finalize_of_not_final hfinal, rfl, Sm3.finalDigest_short, Sm3.finalDigest_long⟩

/-! ## The padded message (R115) -/

/-- Bytes that fill up the last block add one compression and leave nothing behind. -/
theorem foldBlocks_append_of_eq {m x : List Byte} (h : m.length % 64 + x.length = 64) :
    foldBlocks (m ++ x) = compress (foldBlocks m) (blockOf (partialBlock m ++ x)) ∧ partialBlock (m ++ x) = [] := by
  have hlen : (partialBlock m ++ x).length = 64 := by rw [List.length_append, partialBlock_length, h]
  obtain ⟨hfold, hpart⟩ := foldBlocks_append_of_ge (m := m) (x := x) h.ge (by omega)
  exact ⟨by rw [hfold, List.take_of_length_le hlen.le], by rw [hpart, List.drop_of_length_le hlen.le]⟩

/-- With room for the length in the last block, the padding fills that block. -/
theorem foldBlocks_paddedMessage_short {m : List Byte} (h : m.length % 64 ≤ 55) :
    foldBlocks (paddedMessage m) = compress (foldBlocks m) (blockOf (partialBlock m ++ [0x80] ++
      List.replicate (55 - m.length % 64) 0 ++ be64Bytes (BitVec.ofNat 64 (8 * m.length)))) := by
  have hzeros : (119 - m.length % 64) % 64 = 55 - m.length % 64 := by omega
  simp only [paddedMessage, hzeros, List.append_assoc]
  refine (foldBlocks_append_of_eq ?_).1
  simp
  omega

/-- Without it, the 0x80 byte and zeros fill that block, and 56 more zeros and the length are a block of their own. -/
theorem foldBlocks_paddedMessage_long {m : List Byte} (h : 56 ≤ m.length % 64) :
    foldBlocks (paddedMessage m) = compress
      (compress (foldBlocks m) (blockOf (partialBlock m ++ [0x80] ++ List.replicate (63 - m.length % 64) 0)))
      (blockOf (List.replicate 56 0 ++ be64Bytes (BitVec.ofNat 64 (8 * m.length)))) := by
  have hzeros : (119 - m.length % 64) % 64 = 63 - m.length % 64 + 56 := by omega
  have hfirst : m.length % 64 + ([(0x80 : Byte)] ++ List.replicate (63 - m.length % 64) 0).length = 64 := by
    simp
    omega
  obtain ⟨hfold, hpart⟩ := foldBlocks_append_of_eq hfirst
  have hlast := (foldBlocks_append_of_eq (m := m ++ ([(0x80 : Byte)] ++ List.replicate (63 - m.length % 64) 0))
    (x := List.replicate 56 0 ++ be64Bytes (BitVec.ofNat 64 (8 * m.length))) (by simp; omega)).1
  rw [hfold, hpart, List.nil_append] at hlast
  rw [paddedMessage, hzeros, List.replicate_add]
  simpa only [List.append_assoc] using hlast

/-- The digest of a unit that has absorbed `m` is the fold over `m` padded. -/
theorem Sm3.Absorbed.finalDigest_eq {u : Sm3} {m : List Byte} (h : u.Absorbed m) :
    u.finalDigest = foldBlocks (paddedMessage m) := by
  obtain ⟨-, hfill, hv, hpending, hcnt⟩ := h
  have hlength : 8 * u.cnt = BitVec.ofNat 64 (8 * m.length) := by
    rw [hcnt, BitVec.ofNat_mul]
    rfl
  by_cases hroom : u.fill ≤ 55
  · rw [Sm3.finalDigest_short hroom, foldBlocks_paddedMessage_short (hfill ▸ hroom), hlength, hv, hpending, hfill]
  · rw [Sm3.finalDigest_long (by omega), foldBlocks_paddedMessage_long (by omega), hlength, hv, hpending, hfill]

/-- Settles O30: FINALIZE comes to a unit that has absorbed the whole message. -/
theorem digestIsFoldOverPaddedMessage : Obligations.DigestIsFoldOverPaddedMessage := by
  intro s ps hps
  obtain ⟨b, hrun, hb⟩ := hashRun_absorbed hps (s := s.withSm3 s.sm3.unitReset) s.sm3.unitReset_absorbed
  exact ⟨_, _, rfl, hrun.trans (exec_sm3Finalize_of_not_final hb.final), hb.finalDigest_eq, hb.cnt, rfl, rfl, rfl⟩

/-! ## What the moves of a step change of the unit (10_state.md R20, R22, R26) -/

/-- The end of a command that raised leaves all of the unit but ERR and BUSY (60_exceptions.md R230). -/
theorem Sm3.finish_of_err_ne_ok {u : Sm3} {result : Except ErrCode Sm3} (h : (u.finish result).err ≠ .ok) :
    u.finish result = { u with err := (u.finish result).err, busy := (u.finish result).busy } := by
  cases result with
  | error c => rfl
  | ok u' => exact absurd rfl h

/-- ABSORB writes `V`, `CNT`, `BUF`, `FILL`, ERR and BUSY only. -/
theorem Sm3.finish_absorbRule_frame (u : Sm3) (nb : Nat) :
    (u.finish (u.absorbRule nb)).ovr = u.ovr ∧ (u.finish (u.absorbRule nb)).din = u.din ∧
      (u.finish (u.absorbRule nb)).busy = false := by
  unfold Sm3.absorbRule
  split
  · exact ⟨rfl, rfl, rfl⟩
  · split
    · exact ⟨rfl, rfl, rfl⟩
    · obtain ⟨-, -, -, hovr, -, hdin⟩ := absorbBytes_frame u (windowBytes u.din nb)
      exact ⟨hovr, hdin, rfl⟩

/-- FINALIZE writes `V`, `BUF`, `FILL`, FINAL, ERR and BUSY only. -/
theorem Sm3.finish_finalizeRule_frame (u : Sm3) (junk : Vector Byte 64) :
    (u.finish (u.finalizeRule junk)).ovr = u.ovr ∧ (u.finish (u.finalizeRule junk)).din = u.din ∧
      (u.finish (u.finalizeRule junk)).cnt = u.cnt ∧ (u.finish (u.finalizeRule junk)).busy = false := by
  unfold Sm3.finalizeRule
  split <;> exact ⟨rfl, rfl, rfl, rfl⟩

/-- OVR is cleared by the resets only. -/
theorem Sm3.Move.ovr_or_reset {u u' : Sm3} (hmove : u.Move u') (hovr : u.ovr = true) :
    u'.ovr = true ∨ u' = u.unitReset ∨ u' = .reset := by
  cases hmove with
  | hardReset => exact .inr (.inr rfl)
  | unitReset => exact .inr (.inl rfl)
  | dropWrite => exact .inl rfl
  | absorb => exact .inl ((Sm3.finish_absorbRule_frame u _).1.trans hovr)
  | finalize => exact .inl ((Sm3.finish_finalizeRule_frame u _).1.trans hovr)
  | stay | setDin | issue | illegal => exact .inl hovr

/-- `V` is written by the resets and by the completions of ABSORB and FINALIZE only. -/
theorem Sm3.Move.v_changes {u u' : Sm3} (hmove : u.Move u') (hne : u'.v ≠ u.v) :
    u' = u.unitReset ∨ u' = .reset ∨ (u.busy = true ∧ u'.busy = false ∧
      ((∃ nb, decode .sm3 u.pend = .ok (.sm3Absorb nb)) ∨ decode .sm3 u.pend = .ok .sm3Finalize)) := by
  cases hmove with
  | hardReset => exact .inr (.inl rfl)
  | unitReset => exact .inl rfl
  | absorb hbusy _ hd =>
    obtain ⟨-, -, hidle⟩ := Sm3.finish_absorbRule_frame u _
    exact .inr (.inr ⟨hbusy, hidle, .inl ⟨_, hd⟩⟩)
  | finalize hbusy hd junk =>
    obtain ⟨-, -, -, hidle⟩ := Sm3.finish_finalizeRule_frame u junk
    exact .inr (.inr ⟨hbusy, hidle, .inr hd⟩)
  | stay | dropWrite | setDin | issue | illegal => exact absurd rfl hne

/-- `CNT` is written by the resets and by the completion of ABSORB only. -/
theorem Sm3.Move.cnt_changes {u u' : Sm3} (hmove : u.Move u') (hne : u'.cnt ≠ u.cnt) :
    u' = u.unitReset ∨ u' = .reset ∨ (u.busy = true ∧ u'.busy = false ∧
      ∃ nb, decode .sm3 u.pend = .ok (.sm3Absorb nb)) := by
  cases hmove with
  | hardReset => exact .inr (.inl rfl)
  | unitReset => exact .inl rfl
  | absorb hbusy _ hd =>
    obtain ⟨-, -, hidle⟩ := Sm3.finish_absorbRule_frame u _
    exact .inr (.inr ⟨hbusy, hidle, _, hd⟩)
  | finalize _ _ junk =>
    obtain ⟨-, -, hcnt, -⟩ := Sm3.finish_finalizeRule_frame u junk
    exact absurd hcnt hne
  | stay | dropWrite | setDin | issue | illegal => exact absurd rfl hne

/-- Settles O56: a step moves the unit, and the moves that change `V` or `CNT` are the two commands' and the resets. -/
theorem chainingChangesOnlyBySm3Commands : Obligations.ChainingChangesOnlyBySm3Commands := fun _ _ hstep =>
  ⟨(step_sm3_move hstep).v_changes, (step_sm3_move hstep).cnt_changes⟩

end Sys2Proof.Machine

/-! The commands of the SM2 unit without error: keys, message, signature, verdict and MULADD (42_sm2_signer.md,
43_ec_muladd.md). -/

namespace Sys2Proof.Machine

/-! ## Keys and MULADD (R177 to R179, R212) -/

/-- LOAD_PRIV of a scalar in range. -/
theorem loadPrivRule_of_in_range {c : Curve} {u : Sm2} (hmode : u.mode = .none) (h0 : 0 < u.op0.toNat)
    (hN : u.op0.toNat < c.N) :
    u.loadPrivRule c = .ok { u with key := .signing u.op0.toNat (c.ecMul u.op0.toNat c.G) } := by
  simp [Sm2.loadPrivRule, hmode, h0, hN]

/-- LOAD_PUB of a window that encodes a point. -/
theorem loadPubRule_of_point {c : Curve} {u : Sm2} {q : Pt} (hmode : u.mode = .none) (hq : c.ptDec u.pt0 = some q) :
    u.loadPubRule c = .ok { u with key := .verifying q } := by
  simp [Sm2.loadPubRule, hmode, hq]

/-- MULADD of two windows that encode points. -/
theorem muladdRule_of_points {c : Curve} {u : Sm2} {p q : Pt} (hp : c.ptDec u.pt0 = some p) (hq : c.ptDec u.pt1 = some q) :
    u.muladdRule c = .ok { u with rpt := c.ptEnc (shamir c u.op0.toNat p u.op1.toNat q) } := by
  simp [Sm2.muladdRule, hp, hq]

/-- A command of the SM2 unit whose rule succeeds writes what the rule wrote, ERR and BUSY (30_encoding.md R98). -/
theorem next_withSm2_finish_of_ok {s : State} {rule : Except ErrCode Sm2} {u : Sm2} (h : rule = .ok u) :
    (.next (s.withSm2 (s.sm2.finish rule)) : Host.Outcome State Fault Refusal) =
      .next (s.withSm2 { u with err := .ok, busy := false }) := by
  rw [h]
  rfl

/-- Settles O31: the rule succeeds with the key and its point. -/
theorem loadPrivLoadsKey : Obligations.LoadPrivLoadsKey := fun _ hmode h0 hN =>
  next_withSm2_finish_of_ok (loadPrivRule_of_in_range hmode h0 hN)

/-- Settles O32: the rule succeeds with the point. -/
theorem loadPubLoadsPoint : Obligations.LoadPubLoadsPoint := fun _ _ hmode hq =>
  next_withSm2_finish_of_ok (loadPubRule_of_point hmode hq)

/-- Settles O33: the rule always succeeds. -/
theorem msgClearEmptiesMessage : Obligations.MsgClearEmptiesMessage := fun s =>
  next_withSm2_finish_of_ok (u := { s.sm2 with eacc := 0 }) rfl

/-- Settles O46: the rule succeeds with the routine's point. -/
theorem muladdWritesResult : Obligations.MuladdWritesResult := fun _ _ _ hp hq =>
  next_withSm2_finish_of_ok (muladdRule_of_points hp hq)

/-! ## The message accumulator (R175, R180) -/

/-- The bytes read as one big-endian number behind the number `e`. -/
def beIntFrom (e : Nat) (m : List Byte) : Nat := m.foldl (fun acc b => acc * 256 + b.toNat) e

/-- A number in front of the bytes counts 256 for each of them. -/
theorem beIntFrom_eq (e : Nat) (m : List Byte) : beIntFrom e m = e * 256 ^ m.length + beInt m := by
  induction m using List.reverseRecOn with
  | nil => simp [beIntFrom, beInt]
  | append_singleton m b ih =>
    have hlast (a : Nat) : beIntFrom a (m ++ [b]) = beIntFrom a m * 256 + b.toNat := by
      simp [beIntFrom]
    rw [show beInt (m ++ [b]) = beInt m * 256 + b.toNat from hlast 0, hlast e, ih, List.length_append, List.length_singleton]
    ring

/-- Reducing modulo `n` at every byte reduces the whole number. -/
theorem foldMessage_mod (n e : Nat) (m : List Byte) : foldMessage n (e % n) m = beIntFrom e m % n := by
  induction m generalizing e with
  | nil => rfl
  | cons b m ih =>
    have hbyte : (e % n * 256 + b.toNat) % n = (e * 256 + b.toNat) % n :=
      ((Nat.mod_modEq e n).mul_right 256).add_right b.toNat
    calc foldMessage n (e % n) (b :: m) = foldMessage n ((e % n * 256 + b.toNat) % n) m := rfl
      _ = foldMessage n ((e * 256 + b.toNat) % n) m := by rw [hbyte]
      _ = beIntFrom e (b :: m) % n := ih (e * 256 + b.toNat)

/-- MSG_ABSORB of a count it admits. -/
theorem msgAbsorbRule_ok {c : Curve} {u : Sm2} {nb : Nat} (hnb : nb ≤ 64) :
    u.msgAbsorbRule c nb = .ok { u with eacc := foldMessage c.N u.eacc (windowBytes u.msg nb) } :=
  if_neg (Nat.not_lt.2 hnb)

/-- Settles O34: the rule folds the bytes in from a residue. -/
theorem msgAbsorbIsBigEndian : Obligations.MsgAbsorbIsBigEndian := by
  intro s nb hnb heacc
  have hfold := foldMessage_mod Config.curve.N s.sm2.eacc (windowBytes s.sm2.msg nb)
  rw [Nat.mod_eq_of_lt heacc, beIntFrom_eq, windowBytes_length] at hfold
  rw [← hfold]
  exact next_withSm2_finish_of_ok (msgAbsorbRule_ok hnb)

/-- Settles O35: from 0 the fold is the message modulo `N`, and signing and verifying use `e` in sums modulo `N` only. -/
theorem accumulatorGivesSameResults : Obligations.AccumulatorGivesSameResults := by
  refine ⟨fun n m _ => ?_, fun c d e k => ?_, fun c q e r s => ?_⟩
  · have hfold := foldMessage_mod n 0 m
    rwa [Nat.zero_mod] at hfold
  · simp only [signPass, Nat.mod_add_mod]
  · simp only [verifySignature, Nat.mod_add_mod]

/-! ## SIGN (R181, R182, R185) -/

/-- The loop passes over answers that it rejects. -/
theorem signLoop_append_of_none {c : Curve} {d e : Nat} {pre : List Nat} (h : ∀ x ∈ pre, signPass c d e x = none)
    (rest : List Nat) : signLoop c d e (pre ++ rest) = signLoop c d e rest := by
  induction pre with
  | nil => rfl
  | cons x pre ih =>
    obtain ⟨hx, hpre⟩ := List.forall_mem_cons.1 h
    rw [List.cons_append, signLoop_cons_none hx, ih hpre]

/-- An acceptable answer passes. -/
theorem exists_signPass_of_acceptable {c : Curve} {d e k : Nat} (hp : c.N.Prime) (hd : (d + 1) % c.N ≠ 0)
    (h : Acceptable c d e k) : ∃ r t, signPass c d e k = some (r, t) := by
  cases hpass : signPass c d e k with
  | none => exact absurd h ((signPass_none_iff hp hd).1 hpass)
  | some rt => exact ⟨rt.1, rt.2, rfl⟩

/-- Settles O36: the loop passes over the answers before `k` and ends with `k`'s signature, which fits the result windows. -/
theorem signWritesSignature : Obligations.SignWritesSignature := by
  intro s d q pre post k hkey hinv hanswers hpre hk
  have hl := Config.curve_lawful
  have hrejected (x : Nat) (hx : x ∈ pre) : signPass Config.curve d s.sm2.eacc x = none :=
    (signPass_none_iff hl.order_prime hinv).2 (hpre x hx)
  obtain ⟨r, t, hpass⟩ := exists_signPass_of_acceptable hl.order_prime hinv hk
  obtain ⟨hsignature, -, hr, -, ht⟩ := signPass_signature hl.order_prime hinv hpass
  obtain ⟨hrs0, hrs1⟩ := signed_toNat hl s hr ht post
  have hloop : signLoop Config.curve d s.sm2.eacc s.answers = some ((r, t), post) := by
    rw [hanswers, signLoop_append_of_none hrejected, signLoop_cons_some hpass]
  have hsign : s.signOf Config.curve = s.signed ((r, t), post) := by
    rw [signOf_signing hkey hinv, hloop]
    rfl
  refine ⟨_, congrArg Host.Outcome.next hsign, ?_, rfl⟩
  rw [hrs0, hrs1]
  exact hsignature

/-- Settles O37: the loop rejects every answer. -/
theorem signWaitsForNonce : Obligations.SignWaitsForNonce := by
  intro s d q hkey hinv hnone
  have hrejected (x : Nat) (hx : x ∈ s.answers) : signPass Config.curve d s.sm2.eacc x = none :=
    (signPass_none_iff Config.curve_lawful.order_prime hinv).2 (hnone x hx)
  have hloop : signLoop Config.curve d s.sm2.eacc s.answers = none := by
    rw [← List.append_nil s.answers, signLoop_append_of_none hrejected]
    rfl
  show Host.Outcome.next (s.signOf Config.curve) = _
  rw [signOf_signing hkey hinv, hloop]
  rfl

/-! ## VERIFY (R188) -/

/-- Settles O40: the command completes with the verdict, which is that of R188 over the configured capability. -/
theorem verifyDecidesValid : Obligations.VerifyDecidesValid := by
  intro s q hq hpoint
  refine ⟨_, next_withSm2_finish_of_ok (verifyRule_of_key hq), rfl, ?_⟩
  refine (verifySignature_iff Config.curve_lawful hpoint s.sm2.eacc s.sm2.op0.toNat s.sm2.op1.toNat).trans ?_
  tauto

end Sys2Proof.Machine

/-! What a command and a step can do to the SM2 unit, said once, and what follows for a command that ends with an error, for the
host windows, and for OVR, the key and VALID (10_state.md R28 to R36; 60_exceptions.md R230). -/

namespace Sys2Proof.Machine

/-! ## What a command can do to the SM2 unit -/

/-- A command's effect on the SM2 unit: an error, the writes of its rule with ERR OK and BUSY 0, the reset, or, for SIGN without
an acceptable answer, nothing. -/
inductive Sm2.Effect (c : Curve) (u : Sm2) : Instr → Sm2 → Prop
  | reset : Effect c u .sm2Reset u.unitReset
  | raise {i : Instr} (e : ErrCode) : Effect c u i (u.finish (.error e))
  | loadPriv (hmode : u.mode = .none) (h0 : 0 < u.op0.toNat) (hN : u.op0.toNat < c.N) : Effect c u .sm2LoadPriv
      (u.finish (.ok { u with key := .signing u.op0.toNat (c.ecMul u.op0.toNat c.G) }))
  | loadPub (hmode : u.mode = .none) {q : Pt} (hq : c.ptDec u.pt0 = some q) :
      Effect c u .sm2LoadPub (u.finish (.ok { u with key := .verifying q }))
  | msgClear : Effect c u .sm2MsgClear (u.finish (.ok { u with eacc := 0 }))
  | msgAbsorb (nb : Nat) : Effect c u (.sm2MsgAbsorb nb)
      (u.finish (.ok { u with eacc := foldMessage c.N u.eacc (windowBytes u.msg nb) }))
  | signWait : Effect c u .sm2Sign u
  | sign (hinv : (u.d + 1) % c.N ≠ 0) {k r t : Nat} (hpass : signPass c u.d u.eacc k = some (r, t)) : Effect c u .sm2Sign
      (u.finish (.ok { u with rs0 := BitVec.ofNat 512 r, rs1 := BitVec.ofNat 512 t, eacc := 0 }))
  | verify (verdict : Bool) : Effect c u .sm2Verify (u.finish (.ok { u with valid := verdict, eacc := 0 }))
  | muladd {p q : Pt} (hp : c.ptDec u.pt0 = some p) (hq : c.ptDec u.pt1 = some q) : Effect c u .sm2Muladd
      (u.finish (.ok { u with rpt := c.ptEnc (shamir c u.op0.toNat p u.op1.toNat q) }))

/-- LOAD_PRIV checks MODE, then the scalar (R177). -/
theorem loadPrivRule_effect (c : Curve) (u : Sm2) : u.Effect c .sm2LoadPriv (u.finish (u.loadPrivRule c)) := by
  unfold Sm2.loadPrivRule
  split
  · exact .raise _
  · rename_i hmode
    dsimp only
    split
    · rename_i hrange
      exact .loadPriv (not_not.1 hmode) hrange.1 hrange.2
    · exact .raise _

/-- LOAD_PUB checks MODE, then the window (R178). -/
theorem loadPubRule_effect (c : Curve) (u : Sm2) : u.Effect c .sm2LoadPub (u.finish (u.loadPubRule c)) := by
  unfold Sm2.loadPubRule
  split
  · exact .raise _
  · rename_i hmode
    cases hq : c.ptDec u.pt0 with
    | none => exact .raise _
    | some q => exact .loadPub (not_not.1 hmode) hq

/-- MSG_ABSORB raises for a count that is no command's only (R180). -/
theorem msgAbsorbRule_effect (c : Curve) (u : Sm2) (nb : Nat) :
    u.Effect c (.sm2MsgAbsorb nb) (u.finish (u.msgAbsorbRule c nb)) := by
  unfold Sm2.msgAbsorbRule
  split
  · exact .raise _
  · exact .msgAbsorb nb

/-- SIGN checks MODE and `D + 1`, then waits for an answer or signs (R182). -/
theorem signOf_effect (c : Curve) (s : State) : s.sm2.Effect c .sm2Sign (s.signOf c).sm2 := by
  rw [signOf_eq]
  split
  · exact .raise _
  · split
    · exact .raise _
    · rename_i hinv
      rcases signLoop_cases c s.sm2.d s.sm2.eacc s.answers with ⟨hnone, -⟩ | ⟨-, k, post, ⟨r, t⟩, -, -, hpass, hsome⟩
      · rw [hnone]
        exact .signWait
      · rw [hsome]
        exact .sign hinv hpass

/-- VERIFY checks for a key only (R188). -/
theorem verifyRule_effect (c : Curve) (u : Sm2) : u.Effect c .sm2Verify (u.finish (u.verifyRule c)) := by
  unfold Sm2.verifyRule
  split
  · exact .raise _
  · exact .verify _

/-- MULADD checks the two windows (R212). -/
theorem muladdRule_effect (c : Curve) (u : Sm2) : u.Effect c .sm2Muladd (u.finish (u.muladdRule c)) := by
  unfold Sm2.muladdRule
  split
  · rename_i hp hq
    exact .muladd hp hq
  · exact .raise _

/-- Every command of the SM2 unit has one of those effects, over the configured capability. -/
theorem exec_sm2_effect {i : Instr} (hi : i.unit = .sm2) {s t : State} (h : exec i s = .next t) :
    s.sm2.Effect Config.curve i t.sm2 := by
  cases i with
  | sm2Reset =>
    cases h
    exact .reset
  | sm2LoadPriv =>
    cases h
    exact loadPrivRule_effect Config.curve s.sm2
  | sm2LoadPub =>
    cases h
    exact loadPubRule_effect Config.curve s.sm2
  | sm2MsgClear =>
    cases h
    exact .msgClear
  | sm2MsgAbsorb nb =>
    cases h
    exact msgAbsorbRule_effect Config.curve s.sm2 nb
  | sm2Sign =>
    cases h
    exact signOf_effect Config.curve s
  | sm2Verify =>
    cases h
    exact verifyRule_effect Config.curve s.sm2
  | sm2Muladd =>
    cases h
    exact muladdRule_effect Config.curve s.sm2
  | _ => cases hi

section
variable {c : Curve} {u u' : Sm2} {i : Instr} (h : u.Effect c i u')
include h

/-- A command that raised leaves all of the unit but ERR and BUSY (60_exceptions.md R230). -/
theorem Sm2.Effect.of_err_ne_ok (herr : u'.err ≠ .ok) : u' = { u with err := u'.err, busy := u'.busy } := by
  cases h with
  | raise | signWait => rfl
  | reset | loadPriv | loadPub | msgClear | msgAbsorb | sign | verify | muladd => exact absurd rfl herr

/-- No command writes a host window. -/
theorem Sm2.Effect.windows : u'.op0 = u.op0 ∧ u'.op1 = u.op1 ∧ u'.msg = u.msg ∧ u'.pt0 = u.pt0 ∧ u'.pt1 = u.pt1 := by
  cases h <;> exact ⟨rfl, rfl, rfl, rfl, rfl⟩

/-- Of the commands only RESET writes OVR. -/
theorem Sm2.Effect.ovr_or_reset : u'.ovr = u.ovr ∨ u' = u.unitReset := by
  cases h with
  | reset => exact .inr rfl
  | raise | loadPriv | loadPub | msgClear | msgAbsorb | signWait | sign | verify | muladd => exact .inl rfl

/-- Of the commands only RESET and the two loads, from MODE NONE, write the key. -/
theorem Sm2.Effect.key_changes (hne : u'.key ≠ u.key) :
    u' = u.unitReset ∨ (u.mode = .none ∧ (i = .sm2LoadPriv ∨ i = .sm2LoadPub) ∧ u'.busy = false) := by
  cases h with
  | reset => exact .inl rfl
  | loadPriv hmode => exact .inr ⟨hmode, .inl rfl, rfl⟩
  | loadPub hmode => exact .inr ⟨hmode, .inr rfl, rfl⟩
  | raise | msgClear | msgAbsorb | signWait | sign | verify | muladd => exact absurd rfl hne

/-- Of the commands only RESET and VERIFY write VALID. -/
theorem Sm2.Effect.valid_changes (hne : u'.valid ≠ u.valid) :
    u' = u.unitReset ∨ (i = .sm2Verify ∧ u'.busy = false) := by
  cases h with
  | reset => exact .inl rfl
  | verify => exact .inr ⟨rfl, rfl⟩
  | raise | loadPriv | loadPub | msgClear | msgAbsorb | signWait | sign | muladd => exact absurd rfl hne

end

/-! ## What a command can do to the SM3 unit, and what it leaves of the machine -/

/-- A command's result on the SM3 unit is its reset's or its rule's. -/
theorem exec_sm3_result {i : Instr} (hi : i.unit = .sm3) {s t : State} (h : exec i s = .next t) :
    t.sm3 = s.sm3.unitReset ∨ (∃ nb, t.sm3 = s.sm3.finish (s.sm3.absorbRule nb)) ∨
      ∃ junk, t.sm3 = s.sm3.finish (s.sm3.finalizeRule junk) := by
  cases i with
  | sm3Reset =>
    cases h
    exact .inl rfl
  | sm3Absorb nb =>
    cases h
    exact .inr (.inl ⟨nb, rfl⟩)
  | sm3Finalize =>
    cases h
    exact .inr (.inr ⟨_, finalizeOf_sm3 s⟩)
  | _ => cases hi

/-- What a command of the SM3 unit leaves. -/
theorem exec_sm3_frame {i : Instr} (hi : i.unit = .sm3) {s t : State} (h : exec i s = .next t) :
    t.sm2 = s.sm2 ∧ t.answers = s.answers ∧ t.program = s.program ∧ t.seen = s.seen ∧ t.turns = s.turns := by
  obtain ⟨u, n, hshape⟩ := exec_sm3_shape hi s
  cases hshape.symm.trans h
  exact ⟨rfl, rfl, rfl, rfl, rfl⟩

/-- What a command of the SM2 unit leaves. -/
theorem exec_sm2_frame {i : Instr} (hi : i.unit = .sm2) {s t : State} (h : exec i s = .next t) :
    t.sm3 = s.sm3 ∧ t.program = s.program ∧ t.seen = s.seen ∧ t.turns = s.turns := by
  obtain ⟨u, a, hshape⟩ := exec_sm2_shape hi s
  cases hshape.symm.trans h
  exact ⟨rfl, rfl, rfl, rfl⟩

/-- Settles O49: with an error code, an SM3 rule failed, or the command's effect was an error or none. -/
theorem errorsArePrecise : Obligations.ErrorsArePrecise := by
  refine fun i s t h => ⟨fun hi herr => ?_, fun hi herr => (exec_sm2_effect hi h).of_err_ne_ok herr⟩
  rcases exec_sm3_result hi h with hresult | ⟨nb, hresult⟩ | ⟨junk, hresult⟩ <;> rw [hresult] at herr ⊢
  · exact absurd rfl herr
  · exact Sm3.finish_of_err_ne_ok herr
  · exact Sm3.finish_of_err_ne_ok herr

/-- No command of the SM3 unit writes `DIN`. -/
theorem exec_sm3_din {i : Instr} (hi : i.unit = .sm3) {s t : State} (h : exec i s = .next t) : t.sm3.din = s.sm3.din := by
  rcases exec_sm3_result hi h with hresult | ⟨nb, hresult⟩ | ⟨junk, hresult⟩ <;> rw [hresult]
  · rfl
  · exact (Sm3.finish_absorbRule_frame s.sm3 nb).2.1
  · exact (Sm3.finish_finalizeRule_frame s.sm3 junk).2.1

/-- Settles O57: a command leaves the windows of its own unit, and the rest of the machine but the answers and the count of free
values. -/
theorem commandsKeepHostWindows : Obligations.CommandsKeepHostWindows := by
  intro i s
  obtain ⟨t, h⟩ := exists_exec_eq_next i s
  refine ⟨t, h, ?_⟩
  cases hi : i.unit with
  | sm3 =>
    obtain ⟨hsm2, -, hprogram, hseen, hturns⟩ := exec_sm3_frame hi h
    rw [hsm2]
    exact ⟨exec_sm3_din hi h, rfl, rfl, rfl, rfl, rfl, hprogram, hseen, hturns⟩
  | sm2 =>
    obtain ⟨hsm3, hprogram, hseen, hturns⟩ := exec_sm2_frame hi h
    obtain ⟨hop0, hop1, hmsg, hpt0, hpt1⟩ := (exec_sm2_effect hi h).windows
    rw [hsm3]
    exact ⟨rfl, hop0, hop1, hmsg, hpt0, hpt1, hprogram, hseen, hturns⟩

/-! ## What a step can do to the SM2 unit -/

/-- One step's effect on the SM2 unit: nothing, a reset, a host write (dropped, to a window, or a command issued), or the
completion of the word in flight (20_memory.md R66; 30_encoding.md R98; 70_reset_and_hazards.md R260, R262, R264). -/
inductive Sm2.Move (u : Sm2) : Sm2 → Prop
  | stay : Move u u
  | hardReset : Move u .reset
  | unitReset : Move u u.unitReset
  | dropWrite (hbusy : u.busy = true) : Move u { u with ovr := true }
  | setWindows (hidle : u.busy = false) (a b : BitVec 512) (m : Vector Word 16) (p p' : BitVec 1024) :
      Move u { u with op0 := a, op1 := b, msg := m, pt0 := p, pt1 := p' }
  | issue (hidle : u.busy = false) {v : Word} (hv : v ≠ resetWord) : Move u { u with pend := v, busy := true }
  | illegal (hbusy : u.busy = true) {e : DecodeError} (hd : decode .sm2 u.pend = .error e) :
      Move u (u.finish (.error .illegalCmd))
  | complete (hbusy : u.busy = true) {i : Instr} {u' : Sm2} (hd : decode .sm2 u.pend = .ok i)
      (heffect : u.Effect Config.curve i u') : Move u u'

/-- A write to either unit's register moves the SM2 unit by a dropped write, a write to a window, an issue, its reset, or not at
all. -/
theorem writeReg_sm2_move {r : Reg} {v : Word} {s t : State} (h : s.writeReg r v = .next t) : s.sm2.Move t.sm2 := by
  cases hr : r.unit with
  | sm3 =>
    rw [writeReg_sm2_of_sm3 hr h]
    exact .stay
  | sm2 =>
    have hcases := writeReg_cases h
    rw [hr] at hcases
    rcases hcases with ⟨-, hbusy, rfl⟩ | ⟨-, hidle, rfl⟩ | ⟨-, -, hreset⟩ | ⟨-, -, hbusy, rfl⟩ | ⟨-, hv, hidle, rfl⟩
    · exact .dropWrite hbusy
    · rw [setReg_frame]
      exact .setWindows hidle _ _ _ _ _
    · cases hreset
      exact .unitReset
    · exact .dropWrite hbusy
    · exact .issue hidle hv

/-- The host's turn moves the SM2 unit by its writes only: no read has a side effect (20_memory.md R65). -/
theorem hostTurn_sm2_move {s t : State} (h : hostTurn s = .next t) : s.sm2.Move t.sm2 := by
  rcases hostTurn_cases h with ⟨-, rfl⟩ | ⟨r, p, rfl⟩ | ⟨-, -, v, rest, r, -, -, hwrite⟩
  · exact .stay
  · rw [State.readReg_sm2, State.withProgram_sm2]
    exact .stay
  · exact writeReg_sm2_move (s := s.withProgram rest) hwrite

/-- The SM2 unit's turn moves it by the completion of the word in flight (30_encoding.md R98). -/
theorem completeUnit_sm2_move {s t : State} (h : completeUnit .sm2 s = .next t) : s.sm2.Move t.sm2 := by
  rcases completeUnit_cases h with ⟨-, rfl⟩ | ⟨hbusy, e, hd, rfl⟩ | ⟨hbusy, i, hd, hexec⟩
  · exact .stay
  · exact .illegal hbusy hd
  · exact .complete hbusy hd (exec_sm2_effect (decode_ok hd).1 hexec)

/-- The SM3 unit's turn leaves the SM2 unit (00_scope.md R3). -/
theorem completeUnit_sm3_sm2 {s t : State} (h : completeUnit .sm3 s = .next t) : t.sm2 = s.sm2 := by
  rcases completeUnit_cases h with ⟨-, rfl⟩ | ⟨-, -, -, rfl⟩ | ⟨-, i, hd, hexec⟩
  · rfl
  · rfl
  · exact (exec_sm3_frame (decode_ok hd).1 hexec).1

/-- Of the agents only the host, the SM2 unit itself and the reset input move the SM2 unit. -/
theorem takeTurn_sm2_move {a : Agent} {s t : State} (h : takeTurn a s = .next t) : s.sm2.Move t.sm2 := by
  cases a with
  | host => exact hostTurn_sm2_move h
  | sm2 => exact completeUnit_sm2_move h
  | sm3 =>
    rw [completeUnit_sm3_sm2 h]
    exact .stay
  | rng =>
    cases h
    exact .stay
  | resetPin =>
    cases h
    exact .hardReset

/-- Every step's effect on the SM2 unit is one of those moves. -/
theorem step_sm2_move {s t : State} (h : step s = .next t) : s.sm2.Move t.sm2 := by
  rcases step_cases s with ⟨a, rest, -, hstep⟩ | ⟨-, hstep⟩
  · exact takeTurn_sm2_move (s := s.withTurns rest) (hstep.symm.trans h)
  · exact takeTurn_sm2_move (s := s.tick) (hstep.symm.trans h)

/-! ## OVR, the key and VALID along a step -/

/-- OVR is cleared by the resets only. -/
theorem Sm2.Move.ovr_or_reset {u u' : Sm2} (hmove : u.Move u') (hovr : u.ovr = true) :
    u'.ovr = true ∨ u' = u.unitReset ∨ u' = .reset := by
  cases hmove with
  | hardReset => exact .inr (.inr rfl)
  | unitReset => exact .inr (.inl rfl)
  | dropWrite => exact .inl rfl
  | complete _ _ heffect => exact heffect.ovr_or_reset.imp (fun hkept => hkept.trans hovr) .inl
  | stay | setWindows | issue | illegal => exact .inl hovr

/-- Settles O13: a step moves each unit, and the moves that clear OVR are the resets. -/
theorem overrunStaysUntilReset : Obligations.OverrunStaysUntilReset := fun _ _ hstep =>
  ⟨(step_sm3_move hstep).ovr_or_reset, (step_sm2_move hstep).ovr_or_reset⟩

/-- The key is written by the resets and, from MODE NONE, by the completion of a load only. -/
theorem Sm2.Move.key_changes {u u' : Sm2} (hmove : u.Move u') (hne : u'.key ≠ u.key) :
    u' = u.unitReset ∨ u' = .reset ∨ (u.mode = .none ∧ u.busy = true ∧
      (u.pend = encode .sm2LoadPriv ∨ u.pend = encode .sm2LoadPub) ∧ u'.busy = false) := by
  cases hmove with
  | hardReset => exact .inr (.inl rfl)
  | unitReset => exact .inl rfl
  | complete hbusy hd heffect =>
    have hword := encode_of_decode hd
    rcases heffect.key_changes hne with hreset | ⟨hmode, rfl | rfl, hidle⟩
    · exact .inl hreset
    · exact .inr (.inr ⟨hmode, hbusy, .inl hword.symm, hidle⟩)
    · exact .inr (.inr ⟨hmode, hbusy, .inr hword.symm, hidle⟩)
  | stay | dropWrite | setWindows | issue | illegal => exact absurd rfl hne

/-- Settles O54: a step moves the unit, and the moves that change the key are the loads' and the resets. -/
theorem keyChangesOnlyByLoadOrReset : Obligations.KeyChangesOnlyByLoadOrReset := fun _ _ hstep =>
  (step_sm2_move hstep).key_changes

/-- VALID is written by the resets and by the completion of VERIFY only. -/
theorem Sm2.Move.valid_changes {u u' : Sm2} (hmove : u.Move u') (hne : u'.valid ≠ u.valid) :
    u' = u.unitReset ∨ u' = .reset ∨ (u.busy = true ∧ u.pend = encode .sm2Verify ∧ u'.busy = false) := by
  cases hmove with
  | hardReset => exact .inr (.inl rfl)
  | unitReset => exact .inl rfl
  | complete hbusy hd heffect =>
    have hword := encode_of_decode hd
    rcases heffect.valid_changes hne with hreset | ⟨rfl, hidle⟩
    · exact .inl hreset
    · exact .inr (.inr ⟨hbusy, hword.symm, hidle⟩)
  | stay | dropWrite | setWindows | issue | illegal => exact absurd rfl hne

/-- Settles O55: a step moves the unit, and the moves that change VALID are VERIFY's and the resets. -/
theorem validChangesOnlyByVerifyOrReset : Obligations.ValidChangesOnlyByVerifyOrReset := fun _ _ hstep =>
  (step_sm2_move hstep).valid_changes

end Sys2Proof.Machine

/-! The invariant of the machine: it holds after reset, and every step keeps it. -/

namespace Sys2Proof.Machine

/-! ## The SM3 unit (10_state.md R24; 40_sm3_digest.md R110) -/

/-- A reset unit is sound: nothing counted, nothing pending. -/
theorem Sm3.unitReset_inv (u : Sm3) : u.unitReset.Inv := by
  have hcnt : u.unitReset.cnt = BitVec.ofNat 64 0 := u.unitReset_absorbed.cnt
  exact ⟨Nat.zero_le 63, fun _ => by rw [hcnt]; rfl, fun _ => rfl, fun h => absurd h Bool.false_ne_true, .inl rfl⟩

/-- An error of the unit keeps it sound. -/
theorem Sm3.Inv.finish_error {u : Sm3} (h : u.Inv) {c : ErrCode} (hc : c = .illegalCmd ∨ c = .sequence) :
    (u.finish (.error c)).Inv :=
  ⟨h.fill_le, h.fill_cnt, h.fill_final, fun hbusy => absurd hbusy Bool.false_ne_true, .inr hc⟩

/-- Absorbing advances FILL and CNT alike, modulo 64. -/
theorem Sm3.Inv.absorbBytes_fill {u : Sm3} (h : u.Inv) (hfinal : u.final = false) {m : List Byte} (hm : m.length ≤ 64) :
    (u.absorbBytes m).fill = (u.absorbBytes m).cnt.toNat % 64 := by
  have hcount := h.fill_cnt hfinal
  obtain ⟨hcnt, hshort, hlong⟩ := Sm3.absorbBytes_spec h.fill_le hm
  rw [hcnt, BitVec.toNat_add, BitVec.toNat_ofNat]
  by_cases hlt : u.fill + m.length < 64
  · rw [(hshort hlt).1]
    omega
  · rw [(hlong (Nat.le_of_not_lt hlt)).1]
    omega

/-- ABSORB keeps the unit sound. -/
theorem Sm3.Inv.finish_absorbRule {u : Sm3} (h : u.Inv) {nb : Nat} (hnb : nb ≤ 64) : (u.finish (u.absorbRule nb)).Inv := by
  cases hfinal : u.final with
  | true =>
    rw [absorbRule_final hnb hfinal]
    exact h.finish_error (.inr rfl)
  | false =>
    rw [absorbRule_ok hnb hfinal]
    have hfill := h.absorbBytes_fill hfinal (m := windowBytes u.din nb) (by simpa using hnb)
    have hopen : (u.absorbBytes (windowBytes u.din nb)).final = false := (absorbBytes_frame u _).1.trans hfinal
    refine ⟨?_, fun _ => hfill, fun hclosed => ?_, fun hbusy => absurd hbusy Bool.false_ne_true, .inl rfl⟩
    · show (u.absorbBytes (windowBytes u.din nb)).fill ≤ 63
      omega
    · exact absurd (hopen.symm.trans hclosed) Bool.false_ne_true

/-- FINALIZE keeps the unit sound: it leaves nothing pending. -/
theorem Sm3.Inv.finish_finalizeRule {u : Sm3} (h : u.Inv) (junk : Vector Byte 64) :
    (u.finish (u.finalizeRule junk)).Inv := by
  cases hfinal : u.final with
  | true =>
    rw [finalizeRule_final hfinal]
    exact h.finish_error (.inr rfl)
  | false =>
    rw [finalizeRule_ok hfinal]
    exact ⟨by simp, fun hopen => absurd hopen.symm Bool.false_ne_true, fun _ => rfl,
      fun hbusy => absurd hbusy Bool.false_ne_true, .inl rfl⟩

/-- Every move of a step keeps the unit sound. -/
theorem Sm3.Move.keeps_inv {u u' : Sm3} (hmove : u.Move u') (h : u.Inv) : u'.Inv := by
  cases hmove with
  | stay => exact h
  | hardReset => exact Sm3.unitReset_inv .reset
  | unitReset => exact u.unitReset_inv
  | dropWrite | setDin => exact ⟨h.fill_le, h.fill_cnt, h.fill_final, h.pend_ne, h.err_raised⟩
  | issue _ hv => exact ⟨h.fill_le, h.fill_cnt, h.fill_final, fun _ => hv, h.err_raised⟩
  | illegal => exact h.finish_error (.inl rfl)
  | absorb _ hnb => exact h.finish_absorbRule hnb
  | finalize _ _ junk => exact h.finish_finalizeRule junk

/-! ## The SM2 unit (10_state.md R29, R31, R37; 42_sm2_signer.md R171, R184) -/

/-- An idle unit is sound where its key, its message residue and its results are. -/
theorem Sm2.inv_of_idle {c : Curve} {u : Sm2} (hidle : u.busy = false) (hkey : u.key.Inv c) (heacc : u.eacc < c.N)
    (hrs0 : u.rs0.toNat < c.N) (hrs1 : u.rs1.toNat < c.N) (hrpt : u.rpt = 0 ∨ ∃ P, c.IsPoint P ∧ u.rpt = c.ptEnc P) :
    u.Inv c :=
  ⟨hkey, heacc, hrs0, hrs1, hrpt, fun hbusy => absurd (hidle.symm.trans hbusy) Bool.false_ne_true⟩

/-- A reset unit is sound: no key, no message, no result. -/
theorem Sm2.unitReset_inv {c : Curve} (hl : c.Lawful) (u : Sm2) : u.unitReset.Inv c := by
  have hpos : 0 < c.N := hl.order_prime.pos
  have hzero : (0#512).toNat < c.N := by rwa [BitVec.toNat_zero]
  exact Sm2.inv_of_idle rfl trivial hpos hzero hzero (.inl rfl)

/-- Folding bytes in keeps a residue a residue. -/
theorem foldMessage_lt {n e : Nat} (h : e < n) (m : List Byte) : foldMessage n e m < n := by
  rw [← Nat.mod_eq_of_lt h, foldMessage_mod]
  exact Nat.mod_lt _ (Nat.zero_lt_of_lt h)

/-- Every command keeps the unit sound, over a lawful capability. -/
theorem Sm2.Effect.keeps_inv {c : Curve} (hl : c.Lawful) {u u' : Sm2} {i : Instr} (heffect : u.Effect c i u') (h : u.Inv c) :
    u'.Inv c := by
  have hpos : 0 < c.N := hl.order_prime.pos
  cases heffect with
  | reset => exact Sm2.unitReset_inv hl u
  | raise => exact Sm2.inv_of_idle rfl h.key_inv h.eacc_lt h.rs0_lt h.rs1_lt h.rpt_point
  | loadPriv _ h0 hN => exact Sm2.inv_of_idle rfl ⟨h0, hN, rfl⟩ h.eacc_lt h.rs0_lt h.rs1_lt h.rpt_point
  | loadPub _ hq => exact Sm2.inv_of_idle rfl (hl.dec_point _ _ hq) h.eacc_lt h.rs0_lt h.rs1_lt h.rpt_point
  | msgAbsorb nb => exact Sm2.inv_of_idle rfl h.key_inv (foldMessage_lt h.eacc_lt _) h.rs0_lt h.rs1_lt h.rpt_point
  | signWait => exact h
  | sign hinv hpass =>
    obtain ⟨-, -, hr, -, ht⟩ := signPass_signature hl.order_prime hinv hpass
    have hrs0 := toNat_ofNat_of_lt_order hl hr
    have hrs1 := toNat_ofNat_of_lt_order hl ht
    exact Sm2.inv_of_idle rfl h.key_inv hpos (hrs0.trans_lt hr) (hrs1.trans_lt ht) h.rpt_point
  | msgClear | verify => exact Sm2.inv_of_idle rfl h.key_inv hpos h.rs0_lt h.rs1_lt h.rpt_point
  | muladd hp hq =>
    have hpoint := shamir_point hl u.op0.toNat u.op1.toNat (hl.dec_point _ _ hp) (hl.dec_point _ _ hq)
    exact Sm2.inv_of_idle rfl h.key_inv h.eacc_lt h.rs0_lt h.rs1_lt (.inr ⟨_, hpoint, rfl⟩)

/-- Every move of a step keeps the unit sound. -/
theorem Sm2.Move.keeps_inv {u u' : Sm2} (hmove : u.Move u') (h : u.Inv Config.curve) : u'.Inv Config.curve := by
  have hl := Config.curve_lawful
  cases hmove with
  | stay => exact h
  | hardReset => exact Sm2.unitReset_inv hl .reset
  | unitReset => exact Sm2.unitReset_inv hl u
  | dropWrite | setWindows => exact ⟨h.key_inv, h.eacc_lt, h.rs0_lt, h.rs1_lt, h.rpt_point, h.pend_ne⟩
  | issue _ hv => exact ⟨h.key_inv, h.eacc_lt, h.rs0_lt, h.rs1_lt, h.rpt_point, fun _ => hv⟩
  | illegal => exact Sm2.inv_of_idle rfl h.key_inv h.eacc_lt h.rs0_lt h.rs1_lt h.rpt_point
  | complete _ _ heffect => exact heffect.keeps_inv hl h

/-! ## The answers of the randomness source (R172) -/

/-- SIGN takes answers away only. -/
theorem signOf_answers_subset (c : Curve) (s : State) : (s.signOf c).answers ⊆ s.answers := by
  rw [signOf_eq]
  split
  · exact List.Subset.refl _
  · split
    · exact List.Subset.refl _
    · rcases signLoop_cases c s.sm2.d s.sm2.eacc s.answers with ⟨hnone, -⟩ | ⟨pre, k, post, rs, hsplit, -, -, hsome⟩
      · rw [hnone]
        exact List.nil_subset _
      · rw [hsome, hsplit]
        exact fun x hx => List.mem_append_right pre (List.mem_cons_of_mem k hx)

/-- No command adds an answer. -/
theorem exec_answers_subset {i : Instr} {s t : State} (h : exec i s = .next t) : t.answers ⊆ s.answers := by
  cases hi : i.unit with
  | sm3 =>
    obtain ⟨-, hanswers, -⟩ := exec_sm3_frame hi h
    simp only [hanswers, List.Subset.refl]
  | sm2 =>
    by_cases hsign : i = .sm2Sign
    · subst hsign
      cases h
      exact signOf_answers_subset Config.curve s
    · obtain ⟨f, hf⟩ := exec_sm2_of_ne_sign hi hsign
      cases (hf s).symm.trans h
      exact List.Subset.refl _

/-- No write adds an answer. -/
theorem writeReg_answers_subset {r : Reg} {v : Word} {s t : State} (h : s.writeReg r v = .next t) :
    t.answers ⊆ s.answers := by
  rcases writeReg_cases h with ⟨-, -, rfl⟩ | ⟨-, -, rfl⟩ | ⟨-, -, hreset⟩ | ⟨-, -, -, rfl⟩ | ⟨-, -, -, rfl⟩
  · simp only [State.dropWrite_answers, List.Subset.refl]
  · rw [setReg_frame]
    exact List.Subset.refl _
  · exact exec_answers_subset hreset
  · simp only [State.dropWrite_answers, List.Subset.refl]
  · simp only [State.issue_answers, List.Subset.refl]

/-- No turn of the host adds an answer. -/
theorem hostTurn_answers_subset {s t : State} (h : hostTurn s = .next t) : t.answers ⊆ s.answers := by
  rcases hostTurn_cases h with ⟨-, rfl⟩ | ⟨r, p, rfl⟩ | ⟨-, -, v, rest, r, -, -, hwrite⟩
  · exact List.Subset.refl _
  · simp only [State.readReg_answers, State.withProgram_answers, List.Subset.refl]
  · exact writeReg_answers_subset (s := s.withProgram rest) hwrite

/-- No completion adds an answer. -/
theorem completeUnit_answers_subset {u : UnitId} {s t : State} (h : completeUnit u s = .next t) :
    t.answers ⊆ s.answers := by
  rcases completeUnit_cases h with ⟨-, rfl⟩ | ⟨-, -, -, rfl⟩ | ⟨-, i, -, hexec⟩
  · exact List.Subset.refl _
  · simp only [State.raise_answers, List.Subset.refl]
  · exact exec_answers_subset hexec

/-- The source alone adds an answer, and brings it into range. -/
theorem takeTurn_answers {a : Agent} {s t : State} (h : takeTurn a s = .next t) {k : Nat} (hk : k ∈ t.answers) :
    k ∈ s.answers ∨ k < 2 ^ Config.curve.nbits := by
  cases a with
  | host => exact .inl (hostTurn_answers_subset h hk)
  | sm3 | sm2 => exact .inl (completeUnit_answers_subset h hk)
  | rng =>
    cases h
    rcases List.mem_append.1 hk with hold | hnew
    · exact .inl hold
    · rw [List.mem_singleton.1 hnew]
      exact .inr (Nat.mod_lt _ (Nat.two_pow_pos _))
  | resetPin =>
    cases h
    exact .inl hk

/-- After a step every answer was there before it or is in range. -/
theorem step_answers {s t : State} (h : step s = .next t) {k : Nat} (hk : k ∈ t.answers) :
    k ∈ s.answers ∨ k < 2 ^ Config.curve.nbits := by
  rcases step_cases s with ⟨a, rest, -, hstep⟩ | ⟨-, hstep⟩
  · exact takeTurn_answers (s := s.withTurns rest) (hstep.symm.trans h) hk
  · exact takeTurn_answers (s := s.tick) (hstep.symm.trans h) hk

/-! ## The machine -/

/-- Settles O50: both units are as a reset leaves them, and there are no answers. -/
theorem resetMeetsInvariant : Obligations.ResetMeetsInvariant :=
  ⟨Sm3.unitReset_inv .reset, Sm2.unitReset_inv Config.curve_lawful .reset, fun _ hk => absurd hk List.not_mem_nil⟩

/-- Settles O51: a step moves each unit, every move keeps its unit sound, and an answer it adds is in range. -/
theorem stepKeepsInvariant : Obligations.StepKeepsInvariant := fun _ _ h hstep =>
  ⟨(step_sm3_move hstep).keeps_inv h.sm3, (step_sm2_move hstep).keeps_inv h.sm2,
    fun _ hk => (step_answers hstep hk).elim (h.answers_lt _) id⟩

end Sys2Proof.Machine

/-! Host programs: one of legal accesses meets no fault (60_exceptions.md R239), and LOADWIN loads its window (30_encoding.md
R100). -/

namespace Sys2Proof.Machine

/-! ## Legal programs -/

/-- No command touches the host's program. -/
theorem exec_program {i : Instr} {s t : State} (h : exec i s = .next t) : t.program = s.program := by
  cases hi : i.unit with
  | sm3 =>
    obtain ⟨-, -, hprogram, -⟩ := exec_sm3_frame hi h
    exact hprogram
  | sm2 =>
    obtain ⟨-, hprogram, -⟩ := exec_sm2_frame hi h
    exact hprogram

/-- No write touches the rest of the host's program. -/
theorem writeReg_program {r : Reg} {v : Word} {s t : State} (h : s.writeReg r v = .next t) : t.program = s.program := by
  rcases writeReg_cases h with ⟨-, -, rfl⟩ | ⟨-, -, rfl⟩ | ⟨-, -, hreset⟩ | ⟨-, -, -, rfl⟩ | ⟨-, -, -, rfl⟩
  · exact s.dropWrite_program r.unit
  · rw [setReg_frame]
  · exact exec_program hreset
  · exact s.dropWrite_program r.unit
  · exact s.issue_program r.unit v

/-- A write to a register that is not read-only is answered. -/
theorem exists_writeReg_eq_next {r : Reg} (hr : r.access ≠ .ro) (v : Word) (s : State) :
    ∃ t, s.writeReg r v = .next t := by
  unfold State.writeReg
  cases hacc : r.access with
  | ro => exact absurd hacc hr
  | wo => exact exists_cmdWrite_eq_next r.unit v s
  | rw => cases s.busy r.unit <;> exact ⟨_, rfl⟩

/-- The host's turn with a legal program is answered, and leaves no statement that was not there. -/
theorem hostTurn_of_legal {s : State} (h : ∀ st ∈ s.program, st.Legal) :
    ∃ t, hostTurn s = .next t ∧ t.program ⊆ s.program := by
  cases hprogram : s.program with
  | nil => exact ⟨s, by rw [hostTurn, hprogram], hprogram ▸ List.Subset.refl _⟩
  | cons st rest =>
    have hst : st.Legal := h st (hprogram ▸ List.mem_cons_self)
    have hrest : rest ⊆ st :: rest := List.subset_cons_self st rest
    cases st with
    | read width offset =>
      obtain ⟨rfl, r, hr⟩ := hst
      have hacc := accessReg_eq_ok_iff.2 ⟨rfl, hr⟩
      refine ⟨(s.withProgram rest).readReg r, ?_, (State.readReg_program _ r).symm ▸ hrest⟩
      rw [hostTurn, hprogram]
      simp only [busRead, hacc]
    | write width offset v =>
      obtain ⟨rfl, r, hr, hwritable⟩ := hst
      have hacc := accessReg_eq_ok_iff.2 ⟨rfl, hr⟩
      obtain ⟨t, ht⟩ := exists_writeReg_eq_next hwritable v (s.withProgram rest)
      refine ⟨t, ?_, (writeReg_program ht).symm ▸ hrest⟩
      rw [hostTurn_write hprogram, busWrite, hacc]
      exact ht
    | poll u =>
      refine ⟨_, pollWaitsForCompletion s u rest hprogram, ?_⟩
      show (if s.busy u = true then s.program else rest) ⊆ .poll u :: rest
      split
      · rw [hprogram]
        exact List.Subset.refl _
      · exact hrest

/-- A completion is answered, and leaves the program. -/
theorem exists_completeUnit_eq_next (u : UnitId) (s : State) :
    ∃ t, completeUnit u s = .next t ∧ t.program = s.program := by
  unfold completeUnit
  split
  · split
    · rename_i i _
      obtain ⟨t, ht⟩ := exists_exec_eq_next i s
      exact ⟨t, ht, exec_program ht⟩
    · exact ⟨_, rfl, s.raise_program u .illegalCmd⟩
  · exact ⟨s, rfl, rfl⟩

/-- Whosever turn it is, a legal program meets no fault, and what is left of it is legal. -/
theorem takeTurn_of_legal (a : Agent) {s : State} (h : ∀ st ∈ s.program, st.Legal) :
    ∃ t, takeTurn a s = .next t ∧ ∀ st ∈ t.program, st.Legal := by
  cases a with
  | host =>
    obtain ⟨t, ht, hsub⟩ := hostTurn_of_legal h
    exact ⟨t, ht, fun st hst => h st (hsub hst)⟩
  | sm3 =>
    obtain ⟨t, ht, hprogram⟩ := exists_completeUnit_eq_next .sm3 s
    exact ⟨t, ht, hprogram ▸ h⟩
  | sm2 =>
    obtain ⟨t, ht, hprogram⟩ := exists_completeUnit_eq_next .sm2 s
    exact ⟨t, ht, hprogram ▸ h⟩
  | rng => exact ⟨_, rfl, h⟩
  | resetPin => exact ⟨_, rfl, h⟩

/-- The same of a step. -/
theorem step_of_legal {s : State} (h : ∀ st ∈ s.program, st.Legal) :
    ∃ t, step s = .next t ∧ ∀ st ∈ t.program, st.Legal := by
  rcases step_cases s with ⟨a, rest, -, hstep⟩ | ⟨-, hstep⟩
  · rw [hstep]
    exact takeTurn_of_legal a (s := s.withTurns rest) h
  · rw [hstep]
    exact takeTurn_of_legal _ (s := s.tick) h

/-- Settles O58, by induction on the number of steps: each is answered and leaves a legal program. -/
theorem legalProgramMeetsNoFault : Obligations.LegalProgramMeetsNoFault := by
  intro n
  induction n with
  | zero => exact fun _ _ => trivial
  | succ n ih =>
    intro s h
    obtain ⟨t, ht, hlegal⟩ := step_of_legal h
    exact ⟨t, ht, ih t hlegal⟩

/-! ## LOADWIN (R100) -/

/-- A window `y` after the words at `ks` were written as those of `x`. -/
def setWords {n : Nat} (x y : BitVec (32 * n)) (ks : List (Fin n)) : BitVec (32 * n) :=
  ks.foldl (fun w k => wideSet n w k.val (wideWord n x k.val)) y

/-- The words written are those of `x`, the others those of `y`. -/
theorem wideWord_setWords {n : Nat} (x y : BitVec (32 * n)) (ks : List (Fin n)) (j : Fin n) :
    wideWord n (setWords x y ks) j.val = if j ∈ ks then wideWord n x j.val else wideWord n y j.val := by
  induction ks generalizing y with
  | nil => rfl
  | cons k ks ih =>
    have hword : wideWord n (wideSet n y k.val (wideWord n x k.val)) j.val =
        if j = k then wideWord n x k.val else wideWord n y j.val := by
      simpa only [wideWord_eq_extractLsb'] using extractLsb'_wideSet n y k j (wideWord n x k.val)
    calc wideWord n (setWords x y (k :: ks)) j.val
        = wideWord n (setWords x (wideSet n y k.val (wideWord n x k.val)) ks) j.val := rfl
      _ = if j ∈ ks then wideWord n x j.val else if j = k then wideWord n x k.val else wideWord n y j.val := by rw [ih, hword]
      _ = if j ∈ k :: ks then wideWord n x j.val else wideWord n y j.val := by
        by_cases hjk : j = k
        · simp [hjk]
        · simp [hjk]

/-- With every word written the window is `x`. -/
theorem setWords_finRange {n : Nat} (x y : BitVec (32 * n)) : setWords x y (List.finRange n) = x := by
  refine wideWord_ext fun k hk => ?_
  rw [wideWord_setWords x y _ ⟨k, hk⟩, if_pos (List.mem_finRange _)]

/-- One write of the host to `SM2_OP0`, on an idle unit. -/
theorem step_write_op0 {s : State} {k : Fin 16} {v : Word} {rest : List Stmt} {turns : List Agent} (hidle : s.sm2.busy = false)
    (hprogram : s.program = wReg (.sm2Op0 k) v :: rest) (hturns : s.turns = .host :: turns) :
    step s = .next { s with sm2 := { s.sm2 with op0 := wideSet 16 s.sm2.op0 k.val v }, program := rest, turns := turns } := by
  rw [step_of_turns hturns]
  refine (hostTurn_write (s := s.withTurns turns) hprogram).trans ?_
  rw [busWrite_offset]
  exact writeReg_of_idle (s := (s.withTurns turns).withProgram rest) (r := .sm2Op0 k) rfl hidle v

/-- A run whose first step is answered goes on from there. -/
theorem run_succ {s t : State} (h : step s = .next t) (n : Nat) :
    Host.Core.run core (n + 1) s = Host.Core.run core n t := by
  have hstep : core.step s = .next t := h
  simp only [Host.Core.run, hstep]

/-- As many steps as there are words write the words. -/
theorem run_write_op0 (x : BitVec 512) (rest : List Stmt) (turns : List Agent) (ks : List (Fin 16)) (s : State)
    (hidle : s.sm2.busy = false) (hprogram : s.program = ks.map (fun k => wReg (.sm2Op0 k) (wideWord 16 x k.val)) ++ rest)
    (hturns : s.turns = List.replicate ks.length .host ++ turns) :
    Host.Core.run core ks.length s = (.next { s with
      sm2 := { s.sm2 with op0 := setWords (n := 16) x s.sm2.op0 ks }, program := rest, turns := turns } :
        Host.Outcome State Fault Refusal) := by
  induction ks generalizing s with
  | nil =>
    obtain rfl : s.program = rest := hprogram
    obtain rfl : s.turns = turns := hturns
    rfl
  | cons k ks ih =>
    exact (run_succ (step_write_op0 hidle hprogram hturns) ks.length).trans (ih _ hidle rfl rfl)

/-- Settles O59: the sixteen writes set every word of the window. -/
theorem loadWindowLoads : Obligations.LoadWindowLoads := by
  intro s x rest turns hidle hprogram hturns
  have hrun := run_write_op0 x rest turns (List.finRange 16) s hidle hprogram hturns
  have hwindow : setWords (n := 16) x s.sm2.op0 (List.finRange 16) = x := setWords_finRange (n := 16) x s.sm2.op0
  rw [hwindow] at hrun
  exact hrun

end Sys2Proof.Machine
